-- ==== Sys2Proof/Word.lean ====
section
/-! DEFINITION. The three word types of the spec (R10): a byte, a 64-bit lane and the 32-bit command word.
Every value is unsigned. -/
namespace Sys2Proof

/-- An unsigned 8-bit value (R10). -/
abbrev Byte := BitVec 8

/-- A lane: an unsigned 64-bit value (R10). -/
abbrev Lane := BitVec 64

/-- A command word: one abstract 32-bit value, never split into bytes (R43, R65). -/
abbrev Word := BitVec 32

end Sys2Proof
end

