-- ==== Sys2Proof/Config.lean ====
section
/-! DEFINITION. The parameters of rules R8 and R9 (00_scope.md) under the spec's own names. They are fixed at
build (rule R7, decision D24), so they are constants and not state. The spec leaves no value open (rule R269),
so there is no free value here. -/
namespace Sys2Proof.Config

/-- `B_BITS` (R8): state width in bits. -/
abbrev stateBits : Nat := 1600
/-- `B` (R8): state width in bytes; the address space is bytes 0 to `B - 1` (R48). -/
abbrev stateBytes : Nat := 200
/-- `W` (R8): lane width in bits. -/
abbrev laneBits : Nat := 64
/-- `LANE_BYTES` (R8). -/
abbrev laneBytes : Nat := 8
/-- `NLANES` (R8): 5 by 5 lanes. -/
abbrev nLanes : Nat := 25
/-- `C_BITS` (R8): capacity in bits. -/
abbrev capacityBits : Nat := 512
/-- `R_BITS` (R8): bitrate in bits. -/
abbrev rateBits : Nat := 1088
/-- `R_BYTES`, `r` (R8): the block size in bytes. -/
abbrev rateBytes : Nat := 136
/-- `D_BITS` (R8): digest length in bits. -/
abbrev digestBits : Nat := 256
/-- `D_BYTES`, `d` (R8): digest length in bytes. -/
abbrev digestBytes : Nat := 32
/-- `NROUNDS` (R8): rounds per permutation. -/
abbrev nRounds : Nat := 24
/-- `LFSR_BITS` (R8): width of the round-constant generator. -/
abbrev lfsrBits : Nat := 8
/-- `LFSR_SEED` (R8). -/
abbrev lfsrSeed : Byte := 0x01#8
/-- `LFSR_POLY` (R8): the feedback constant of the advance rule R160. -/
abbrev lfsrPoly : Byte := 0x71#8
/-- `LFSR_TAP` (R8): the mask of "bit 1" (R163 (b)). -/
abbrev lfsrTap : Byte := 0x02#8
/-- `RC_BITS_PER_ROUND` (R8): advances per iota. -/
abbrev rcBitsPerRound : Nat := 7
/-- `PAD_FIRST` (R8): the first pad byte. -/
abbrev padFirst : Byte := 0x06#8
/-- `PAD_LAST` (R8): merged into the last byte of the padded message. -/
abbrev padLast : Byte := 0x80#8
/-- Width of the command word (R9, R65). -/
abbrev wordBits : Nat := 32

/-- What a byte of `S` that no cell lists reads as: the reset contents the spec gives (R34, `S[0..199]` all
0x00). Log entry 1. -/
abbrev unlistedByte : Byte := 0x00#8

end Sys2Proof.Config
end

