-- ==== Sys2Proof/Machine/State.lean ====
section
/-! DEFINITION. The engine's state (10_state.md: `S`, `R`, `ERR`, `CAUSE`, and nothing else persists), with the
model's own fields for the command port and the host beside it (log entries 2 and 3), and the state after
reset (R34). -/
namespace Sys2Proof.Machine

/-- The 2-bit `CAUSE` field: its four values by name (R28, R221). Its code is `causeCode`. -/
inductive Cause where
  /-- 0: no fault since reset. -/
  | noFault
  /-- 1: ILLEGAL_COMMAND, the word matches no row of the opcode table (R225). -/
  | illegalCommand
  /-- 2: LANE_RANGE, a used lane coordinate holds 5, 6 or 7 (R222). -/
  | laneRange
  /-- 3: LENGTH, the payload length is not the one the command requires (R223). -/
  | length
deriving DecidableEq, Repr

/-- What the host does at the engine's interfaces, one at a time between transactions (R60, R256). -/
inductive HostEvent where
  /-- A command transaction `(w, p)`. -/
  | command (w : Word) (p : List Byte)
  /-- A read of the status port. -/
  | readStatus
  /-- A reset. -/
  | reset
deriving DecidableEq, Repr

/-- What the host gets back (R60, R256). A reset gives nothing back. -/
inductive Answer where
  /-- The output `o` of a command transaction; empty when it was faulted or refused (R61). -/
  | output (o : List Byte)
  /-- The `STATUS` word. -/
  | status (v : Word)
deriving DecidableEq, Repr

/-- Why a step of the MODEL stops. The engine's own faults (R221) are no such stop: they are next states with
`ERR` and `CAUSE` set (R224; log entry 5). -/
inductive Fault where
  /-- Raised by `withBytes` and `putBytes` for bytes outside 0 to 199, which do not exist (R48; `MemRead` and
  `MemWrite` are defined only inside, R13). No command can name such a byte (R44), so no step raises it.
  Safe: the model stops where the spec defines nothing (log entry 6). -/
  | addressOutsideState
deriving DecidableEq, Repr

/-- Why the model has no answer. -/
inductive Refusal where
  /-- Raised by an arm of `exec` whose command has no meaning yet; no arm raises it now. Safe: the model stops
  where the engine goes on. -/
  | notModelled (mnemonic : String)
deriving DecidableEq, Repr

/-- The engine, its command port and the host's side of it. -/
structure State where
  /-- The state buffer `S`, 200 bytes (R20), the 25 lanes being a view of it (R23): its non-zero bytes as
  (address, byte) cells with rising addresses. A byte not listed reads as 0x00 (log entry 1). -/
  S : List Host.Cell
  /-- The round-constant LFSR `R` (R25). -/
  R : Byte
  /-- The sticky error flag (R27). -/
  ERR : Bool
  /-- The cause of the first fault since reset (R28). -/
  CAUSE : Cause
  /-- The payload `p` of the command being executed (R13); empty between steps. The model's own field. -/
  payload : List Byte
  /-- The output the command being executed has emitted (R13); empty between steps. The model's own field. -/
  output : List Byte
  /-- What the host will still do, next first (R64). The model's own field. -/
  pending : List HostEvent
  /-- What the host has got back, in order (R64). The model's own field. -/
  answers : List Answer
deriving DecidableEq, Repr

/-- The three outcomes of a step, for this machine. -/
abbrev Outcome := Host.Outcome State Fault Refusal

/-- The machine right after reset (R34, R250): `S` all zero, `R` = 0x01, `ERR` = 0, `CAUSE` = 0; nothing pending
at the host and nothing answered yet (log entries 2 and 10). -/
def State.reset : State :=
  { S := [], R := Config.lfsrSeed, ERR := false, CAUSE := .noFault,
    payload := [], output := [], pending := [], answers := [] }

end Sys2Proof.Machine
end

