-- ==== Sys2Proof/Machine/Flags.lean ====
section
/-! DEFINITION. The status view of the state (R28, R29). The engine has no condition codes: no command's result
sets a carry, zero, sign or overflow flag (R27). -/
namespace Sys2Proof.Machine

/-- The cause codes of R221. -/
def causeCode : Cause → BitVec 2
  | .noFault => 0#2
  | .illegalCommand => 1#2
  | .laneRange => 2#2
  | .length => 3#2

/-- `STATUS = ERR | (CAUSE << 1) | (R << 8)` (R29): a view of the state, not separate storage. -/
def statusWord (s : State) : Word :=
  (BitVec.ofBool s.ERR).setWidth 32 ||| ((causeCode s.CAUSE).setWidth 32 <<< 1) ||| (s.R.setWidth 32 <<< 8)

end Sys2Proof.Machine
end

