-- ==== Sys2Proof/Syntax.lean ====
section
/-! DEFINITION. The eighteen commands of rule R71 (30_encoding.md) as syntax: one constructor a row of
opcode_table.json. The payload is not part of the word (R78), so it is no field here. -/
namespace Sys2Proof

/-- A lane named by its two 3-bit coordinate fields, as the word carries them (R66, R72). The fields can hold
5, 6 and 7; a command that uses such a field faults with LANE_RANGE (R222). -/
structure LaneRef where
  x : BitVec 3
  y : BitVec 3
deriving DecidableEq, Repr

/-- The commands. The first operand is the destination (R79). -/
inductive Instr where
  /-- LXOR `(dx,dy), (sx,sy)` (R110). -/
  | lxor (d s : LaneRef)
  /-- LAND `(dx,dy), (sx,sy)` (R111). -/
  | land (d s : LaneRef)
  /-- LNOT `(dx,dy)` (R112). -/
  | lnot (d : LaneRef)
  /-- LROL `(dx,dy), (sx,sy), n` (R113). -/
  | lrol (d s : LaneRef) (n : BitVec 12)
  /-- LDL `(dx,dy)`, 8-byte payload (R114). -/
  | ldl (d : LaneRef)
  /-- STL `(dx,dy)`, 8-byte output (R115); the fields keep the name `DX, DY` though the lane is read (R68). -/
  | stl (d : LaneRef)
  /-- THETA (R132). -/
  | theta
  /-- RHOPI (R135). -/
  | rhopi
  /-- CHI (R137). -/
  | chi
  /-- IOTA (R164). -/
  | iota
  /-- ROUND (R139). -/
  | round
  /-- PERMUTE (R141). -/
  | permute
  /-- RCINIT (R167). -/
  | rcinit
  /-- INIT (R180). -/
  | init
  /-- ABSORB, 136-byte payload (R190). -/
  | absorb
  /-- SQUEEZE, 136-byte output (R192). -/
  | squeeze
  /-- LDS, 200-byte payload (R181). -/
  | lds
  /-- STS, 200-byte output (R182). -/
  | sts
deriving DecidableEq, Repr

end Sys2Proof
end

