-- ==== Sys2Proof/WellFormed.lean ====
section
/-! DEFINITION. Which commands name only lanes that exist: coordinates 0 to 4 (R72). An ill-formed command
still has a word and still decodes; executing it faults with LANE_RANGE (R222). Log entry 8. -/
namespace Sys2Proof

/-- The legal values of a coordinate field are 0 to 4 (R72). -/
def LaneRef.wf (d : LaneRef) : Bool := d.x.toNat ≤ 4 && d.y.toNat ≤ 4

/-- Every lane the command's format uses exists (R222: `DX`, `DY` for L1, L2, L2I; also `SX`, `SY` for L2, L2I). -/
def Instr.wf : Instr → Bool
  | .lxor d s => d.wf && s.wf
  | .land d s => d.wf && s.wf
  | .lnot d => d.wf
  | .lrol d s _ => d.wf && s.wf
  | .ldl d => d.wf
  | .stl d => d.wf
  | .theta => true
  | .rhopi => true
  | .chi => true
  | .iota => true
  | .round => true
  | .permute => true
  | .rcinit => true
  | .init => true
  | .absorb => true
  | .squeeze => true
  | .lds => true
  | .sts => true

end Sys2Proof
end

