-- ==== Sys2Proof/Decode.lean ====
section
/-! DEFINITION. The decoder of rule R77, total on all 2^32 words and rejecting by name, the encoder of rules
R66 to R70 after it, and rule R71's table as data. -/
namespace Sys2Proof

/-- Why a word matches no row of the opcode table. Both make it illegal, cause ILLEGAL_COMMAND (R225). -/
inductive Reject where
  /-- `OP` is none of the eighteen assigned values (R74). -/
  | unassignedOpcode
  /-- `OP` is assigned and a bit the format says must be zero is 1 (R75). -/
  | mustBeZeroBit
deriving DecidableEq, Repr

/-! ### Fields (R66) -/

/-- `OP` = bits 31:24. -/
def opField (w : Word) : BitVec 8 := w.extractLsb' 24 8

/-- `DX` = bits 23:21 and `DY` = bits 20:18. -/
def dstField (w : Word) : LaneRef := ⟨w.extractLsb' 21 3, w.extractLsb' 18 3⟩

/-- `SX` = bits 17:15 and `SY` = bits 14:12. -/
def srcField (w : Word) : LaneRef := ⟨w.extractLsb' 15 3, w.extractLsb' 12 3⟩

/-- `IMM12` = bits 11:0. -/
def immField (w : Word) : BitVec 12 := w.extractLsb' 0 12

/-- Accept `i` when the low `n` bits of the word, which its format does not use, are all zero (R75). -/
def zeroBelow (n : Nat) (w : Word) (i : Instr) : Except Reject Instr :=
  if w.toNat % 2 ^ n = 0 then .ok i else .error .mustBeZeroBit

/-- Format N (R67): bits 23:0 must be zero. -/
def formatN (w : Word) (i : Instr) : Except Reject Instr := zeroBelow 24 w i

/-- Format L1 (R68): bits 17:0 must be zero. -/
def formatL1 (w : Word) (i : LaneRef → Instr) : Except Reject Instr := zeroBelow 18 w (i (dstField w))

/-- Format L2 (R69): bits 11:0 must be zero. -/
def formatL2 (w : Word) (i : LaneRef → LaneRef → Instr) : Except Reject Instr :=
  zeroBelow 12 w (i (dstField w) (srcField w))

/-- Format L2I (R70): no bit must be zero. -/
def formatL2I (w : Word) (i : LaneRef → LaneRef → BitVec 12 → Instr) : Except Reject Instr :=
  .ok (i (dstField w) (srcField w) (immField w))

/-- `decode(w)` of rule R77. The coordinate range and the payload length are checked after decoding (R227). -/
def decode (w : Word) : Except Reject Instr :=
  match (opField w).toNat with
  | 0x10 => formatL2 w .lxor
  | 0x11 => formatL2 w .land
  | 0x12 => formatL1 w .lnot
  | 0x13 => formatL2I w .lrol
  | 0x14 => formatL1 w .ldl
  | 0x15 => formatL1 w .stl
  | 0x20 => formatN w .theta
  | 0x21 => formatN w .rhopi
  | 0x22 => formatN w .chi
  | 0x23 => formatN w .iota
  | 0x24 => formatN w .round
  | 0x25 => formatN w .permute
  | 0x26 => formatN w .rcinit
  | 0x30 => formatN w .init
  | 0x31 => formatN w .absorb
  | 0x32 => formatN w .squeeze
  | 0x33 => formatN w .lds
  | 0x34 => formatN w .sts
  | _ => .error .unassignedOpcode

/-! ### The encoder (R66, R71) -/

/-- The lane that unused coordinate fields spell: all bits zero. -/
def LaneRef.zero : LaneRef := ⟨0#3, 0#3⟩

/-- `w = (OP << 24) | (DX << 21) | (DY << 18) | (SX << 15) | (SY << 12) | IMM12` (R66). -/
def assemble (op : BitVec 8) (d s : LaneRef) (n : BitVec 12) : Word :=
  (op.setWidth 32 <<< 24) ||| (d.x.setWidth 32 <<< 21) ||| (d.y.setWidth 32 <<< 18) |||
    (s.x.setWidth 32 <<< 15) ||| (s.y.setWidth 32 <<< 12) ||| n.setWidth 32

/-- The `OP` value of a command (R71). -/
def opcode : Instr → BitVec 8
  | .lxor _ _ => 0x10#8
  | .land _ _ => 0x11#8
  | .lnot _ => 0x12#8
  | .lrol _ _ _ => 0x13#8
  | .ldl _ => 0x14#8
  | .stl _ => 0x15#8
  | .theta => 0x20#8
  | .rhopi => 0x21#8
  | .chi => 0x22#8
  | .iota => 0x23#8
  | .round => 0x24#8
  | .permute => 0x25#8
  | .rcinit => 0x26#8
  | .init => 0x30#8
  | .absorb => 0x31#8
  | .squeeze => 0x32#8
  | .lds => 0x33#8
  | .sts => 0x34#8

/-- The command word of a command: its operands in the fields its format uses, zero in the others (R67 to R70). -/
def encode : Instr → Word
  | .lxor d s => assemble (opcode (.lxor d s)) d s 0#12
  | .land d s => assemble (opcode (.land d s)) d s 0#12
  | .lnot d => assemble (opcode (.lnot d)) d .zero 0#12
  | .lrol d s n => assemble (opcode (.lrol d s n)) d s n
  | .ldl d => assemble (opcode (.ldl d)) d .zero 0#12
  | .stl d => assemble (opcode (.stl d)) d .zero 0#12
  | .theta => assemble (opcode .theta) .zero .zero 0#12
  | .rhopi => assemble (opcode .rhopi) .zero .zero 0#12
  | .chi => assemble (opcode .chi) .zero .zero 0#12
  | .iota => assemble (opcode .iota) .zero .zero 0#12
  | .round => assemble (opcode .round) .zero .zero 0#12
  | .permute => assemble (opcode .permute) .zero .zero 0#12
  | .rcinit => assemble (opcode .rcinit) .zero .zero 0#12
  | .init => assemble (opcode .init) .zero .zero 0#12
  | .absorb => assemble (opcode .absorb) .zero .zero 0#12
  | .squeeze => assemble (opcode .squeeze) .zero .zero 0#12
  | .lds => assemble (opcode .lds) .zero .zero 0#12
  | .sts => assemble (opcode .sts) .zero .zero 0#12

/-! ### The opcode table as data (R71) -/

/-- A row of rule R71's table. `pattern` is the column the spec calls match. -/
structure TableRow where
  mnemonic : String
  pattern : Word
  mask : Word
  payload : Nat
  output : Nat
deriving DecidableEq, Repr

/-- Rule R71's table. The decoder does not read it; the statements compare the decoder with it. -/
def opcodeTable : List TableRow :=
  [⟨"LXOR", 0x10000000#32, 0xFF000FFF#32, 0, 0⟩, ⟨"LAND", 0x11000000#32, 0xFF000FFF#32, 0, 0⟩,
   ⟨"LNOT", 0x12000000#32, 0xFF03FFFF#32, 0, 0⟩, ⟨"LROL", 0x13000000#32, 0xFF000000#32, 0, 0⟩,
   ⟨"LDL", 0x14000000#32, 0xFF03FFFF#32, 8, 0⟩, ⟨"STL", 0x15000000#32, 0xFF03FFFF#32, 0, 8⟩,
   ⟨"THETA", 0x20000000#32, 0xFFFFFFFF#32, 0, 0⟩, ⟨"RHOPI", 0x21000000#32, 0xFFFFFFFF#32, 0, 0⟩,
   ⟨"CHI", 0x22000000#32, 0xFFFFFFFF#32, 0, 0⟩, ⟨"IOTA", 0x23000000#32, 0xFFFFFFFF#32, 0, 0⟩,
   ⟨"ROUND", 0x24000000#32, 0xFFFFFFFF#32, 0, 0⟩, ⟨"PERMUTE", 0x25000000#32, 0xFFFFFFFF#32, 0, 0⟩,
   ⟨"RCINIT", 0x26000000#32, 0xFFFFFFFF#32, 0, 0⟩, ⟨"INIT", 0x30000000#32, 0xFFFFFFFF#32, 0, 0⟩,
   ⟨"ABSORB", 0x31000000#32, 0xFFFFFFFF#32, 136, 0⟩, ⟨"SQUEEZE", 0x32000000#32, 0xFFFFFFFF#32, 0, 136⟩,
   ⟨"LDS", 0x33000000#32, 0xFFFFFFFF#32, 200, 0⟩, ⟨"STS", 0x34000000#32, 0xFFFFFFFF#32, 0, 200⟩]

/-- A command's mnemonic (R71). -/
def mnemonic : Instr → String
  | .lxor _ _ => "LXOR"
  | .land _ _ => "LAND"
  | .lnot _ => "LNOT"
  | .lrol _ _ _ => "LROL"
  | .ldl _ => "LDL"
  | .stl _ => "STL"
  | .theta => "THETA"
  | .rhopi => "RHOPI"
  | .chi => "CHI"
  | .iota => "IOTA"
  | .round => "ROUND"
  | .permute => "PERMUTE"
  | .rcinit => "RCINIT"
  | .init => "INIT"
  | .absorb => "ABSORB"
  | .squeeze => "SQUEEZE"
  | .lds => "LDS"
  | .sts => "STS"

/-- What this decoder reads from a table row's word given as a number, bit 0 the least significant bit. The word
has no byte order (R43), so the number is the word (log entry 7). A number of more than 32 bits is no command. -/
def decodeTableWord (nbits w : Nat) : Option Instr :=
  if w % 2 ^ nbits < 2 ^ 32 then
    match decode (BitVec.ofNat 32 (w % 2 ^ nbits)) with
    | .ok i => some i
    | .error _ => none
  else none

end Sys2Proof
end

