-- ==== Sys2Proof/Machine/Operands.lean ====
section
/-! DEFINITION. What a command's operands mean: the lane functions of 40_lane_primitives.md section 1, the byte
order of lanes (R41), the place of a lane in `S` (R21), the view of `S` as 5 by 5 lanes (R23), and the lanes,
payload and output each command requires (R62, R222). -/
namespace Sys2Proof.Machine

/-! ### Lanes and bytes (R105) -/

/-- `byteToLong(b)`, the sum of `b[i] * 2^(8*i)` (R105). -/
def byteToLong (b : List Byte) : Lane :=
  BitVec.ofNat 64 (b.foldr (fun v acc => v.toNat + 256 * acc) 0)

/-- `longToByte(v)`, the eight bytes `(v >> (8*i)) & 0xFF` (R105). -/
def longToByte (v : Lane) : List Byte :=
  (List.range 8).map fun i => v.extractLsb' (8 * i) 8

/-- `xorN(a, b, n)`: `a` with its first `n` bytes XORed with those of `b` (R101). -/
def xorN (a b : List Byte) (n : Nat) : List Byte :=
  List.zipWith (· ^^^ ·) (a.take n) (b.take n) ++ a.drop n

/-- `rotl64(v, n)` (R11, R104): left is toward the more significant end. -/
def rotl64 (v : Lane) (n : Nat) : Lane :=
  if n % 64 = 0 then v else (v <<< (n % 64)) ||| (v >>> (64 - n % 64))

/-! ### The place of a lane in `S` (R21, R22) -/

/-- The lane index `l = x + 5*y` (R22). -/
def laneIndex (x y : Nat) : Nat := x + 5 * y

/-- The byte offset `off(x, y) = 8 * (x + 5*y)` of the lane an operand names (R21, conflict C1). -/
def laneOffset (d : LaneRef) : Nat := 8 * laneIndex d.x.toNat d.y.toNat

/-- The lane an operand names exists: coordinates 0 to 4; 5, 6 and 7 are not reduced modulo 5 (R72, R222). -/
def laneExists (d : LaneRef) : Bool := d.x.toNat ≤ 4 && d.y.toNat ≤ 4

/-! ### The view of `S` as 25 lanes (R23) -/

/-- The array `A` in lane-index order. -/
abbrev Cube := Vector Lane 25

/-- The array whose lane of index `l` is `f l`. -/
def cubeOf (f : Nat → Lane) : Cube := ⟨⟨(List.range 25).map f⟩, by simp⟩

/-- The lane of index `l`. -/
def laneAt (A : Cube) (l : Nat) : Lane := A.toArray.toList.getD l 0#64

/-- `A[x,y]` (R12). -/
def lane (A : Cube) (x y : Nat) : Lane := laneAt A (laneIndex x y)

/-- The map `S -> A` of R21 on a 200-byte sequence. -/
def unflatten (b : List Byte) : Cube := cubeOf fun l => byteToLong ((b.drop (8 * l)).take 8)

/-- The inverse of `unflatten` (R23). -/
def flatten (A : Cube) : List Byte := A.toArray.toList.flatMap longToByte

/-! ### What a command requires -/

/-- The required payload length `len(p)` (R62). -/
def payloadBytes : Instr → Nat
  | .lxor _ _ => 0
  | .land _ _ => 0
  | .lnot _ => 0
  | .lrol _ _ _ => 0
  | .ldl _ => 8
  | .stl _ => 0
  | .theta => 0
  | .rhopi => 0
  | .chi => 0
  | .iota => 0
  | .round => 0
  | .permute => 0
  | .rcinit => 0
  | .init => 0
  | .absorb => 136
  | .squeeze => 0
  | .lds => 200
  | .sts => 0

/-- The output length `len(o)` of an executed command (R62). -/
def outputBytes : Instr → Nat
  | .lxor _ _ => 0
  | .land _ _ => 0
  | .lnot _ => 0
  | .lrol _ _ _ => 0
  | .ldl _ => 0
  | .stl _ => 8
  | .theta => 0
  | .rhopi => 0
  | .chi => 0
  | .iota => 0
  | .round => 0
  | .permute => 0
  | .rcinit => 0
  | .init => 0
  | .absorb => 0
  | .squeeze => 136
  | .lds => 0
  | .sts => 200

/-- The lanes whose coordinates are range checked (R222). -/
def usedLanes : Instr → List LaneRef
  | .lxor d s => [d, s]
  | .land d s => [d, s]
  | .lnot d => [d]
  | .lrol d s _ => [d, s]
  | .ldl d => [d]
  | .stl d => [d]
  | .theta => []
  | .rhopi => []
  | .chi => []
  | .iota => []
  | .round => []
  | .permute => []
  | .rcinit => []
  | .init => []
  | .absorb => []
  | .squeeze => []
  | .lds => []
  | .sts => []

end Sys2Proof.Machine
end

