-- ==== Sys2Proof/Machine/Ops.lean ====
section
/-! DEFINITION. The shared operations: `S` as memory, the checked accesses to it, the engine's faults (taking one,
refusing while one stands, and the host's reset, the only way back), and the frame every command runs in. -/
namespace Sys2Proof.Machine

/-! ### `S` as memory (R20, R47) -/
namespace Memory

/-- The byte at an address: plain storage, the last value written (R47). -/
def read : List Host.Cell → Nat → Byte
  | [], _ => Config.unlistedByte
  | (b, v) :: rest, a => if a = b then v else read rest a

/-- `MemRead(addr, n)` (R13). -/
def readBytes (m : List Host.Cell) (addr n : Nat) : List Byte :=
  (List.range n).map fun i => read m (addr + i)

/-- The cells of a byte sequence laid out from `addr`, less the bytes an unlisted address reads as anyway. -/
def cells : Nat → List Byte → List Host.Cell
  | _, [] => []
  | addr, v :: vs => if v = Config.unlistedByte then cells (addr + 1) vs else (addr, v) :: cells (addr + 1) vs

/-- `MemWrite(addr, n, v)` with `n` the length of `v` (R13), keeping the canonical form. -/
def writeBytes (m : List Host.Cell) (addr : Nat) (v : List Byte) : List Host.Cell :=
  m.filter (fun c => c.1 < addr) ++ cells addr v ++ m.filter (fun c => addr + v.length ≤ c.1)

/-- The canonical form: addresses strictly rising, inside `S`, and no entry equal to what an unlisted address
reads as. -/
abbrev wf (m : List Host.Cell) : Prop :=
  m.Pairwise (fun c d => c.1 < d.1) ∧ ∀ c ∈ m, c.2 ≠ Config.unlistedByte ∧ c.1 < Config.stateBytes

end Memory

/-! ### Named updates and views -/

/-- Write `S`. -/
def setS (m : List Host.Cell) (s : State) : State := { s with S := m }

/-- Write `R`. -/
def setR (r : Byte) (s : State) : State := { s with R := r }

/-- `emit(v)`: append to the output of the command being executed (R13). -/
def emit (v : List Byte) (s : State) : State := { s with output := s.output ++ v }

/-- The lane of index `l` as `S` holds it: `A[x,y]` for `l = x + 5*y` (R12, R22). -/
def laneOf (s : State) (l : Nat) : Lane := byteToLong (Memory.readBytes s.S (8 * l) 8)

/-! ### Checked accesses to `S` (R13, R48) -/

/-- Read `n` bytes from `addr` and go on with them; bytes outside `S` do not exist. -/
def withBytes (addr n : Nat) (s : State) (k : List Byte → Outcome) : Outcome :=
  if addr + n ≤ Config.stateBytes then k (Memory.readBytes s.S addr n) else .fault .addressOutsideState

/-- Write the bytes `v` from `addr`; bytes outside `S` do not exist. -/
def putBytes (addr : Nat) (v : List Byte) (s : State) : Outcome :=
  if addr + v.length ≤ Config.stateBytes then .next (setS (Memory.writeBytes s.S addr v) s)
  else .fault .addressOutsideState

/-- Read the lane an operand names: `A[x,y]` (R12). -/
def withLane (d : LaneRef) (s : State) (k : Lane → Outcome) : Outcome :=
  withBytes (laneOffset d) Config.laneBytes s fun b => k (byteToLong b)

/-- `A[x,y] <- v` (R12). -/
def putLane (d : LaneRef) (v : Lane) (s : State) : Outcome := putBytes (laneOffset d) (longToByte v) s

/-- Read all of `S` as lanes. -/
def withCube (s : State) (k : Cube → Outcome) : Outcome :=
  withBytes 0 Config.stateBytes s fun b => k (unflatten b)

/-- Write all 25 lanes. -/
def putCube (A : Cube) (s : State) : Outcome := putBytes 0 (flatten A) s

/-! ### Faults (60_exceptions.md) -/

/-- `raise Fault(c)` (R224): no effect on `S` and `R`, an empty output, `ERR <- 1`, `CAUSE <- c`. Nothing else is
saved and control goes nowhere. -/
def takeFault (c : Cause) (s : State) : State := { s with output := [], ERR := true, CAUSE := c }

/-- Refusal while `ERR = 1` (R226): nothing changes and the output is empty. -/
def refuseCommand (s : State) : State := { s with output := [] }

/-- The host's reset (R250), the only way out of a fault (R230). It does not touch what the host will still do or
has already got back (log entry 9). -/
def hostReset (s : State) : State := { State.reset with pending := s.pending, answers := s.answers }

/-- A word that matches no row (R227 items 1 and 2). -/
def rejectWord (s : State) : State := if s.ERR then refuseCommand s else takeFault .illegalCommand s

/-- The frame of every command whose word decoded (R227): refused while `ERR = 1`, then LANE_RANGE, then LENGTH,
and only then its effect, with an output that is empty so far. -/
def command (i : Instr) (effect : State → Outcome) (s : State) : Outcome :=
  if s.ERR then .next (refuseCommand s)
  else if (usedLanes i).all laneExists = false then .next (takeFault .laneRange s)
  else if s.payload.length ≠ payloadBytes i then .next (takeFault .length s)
  else effect { s with output := [] }

end Sys2Proof.Machine
end

