-- ==== Sys2Proof/Machine/Lanes.lean ====
section
/-! DEFINITION. The lane commands (40_lane_primitives.md section 2). Every command reads its operands before it
writes (R106), so the same lane as source and destination is defined (R119). -/
namespace Sys2Proof.Machine

/-- LXOR (R110): `A[DX,DY] <- A[DX,DY] ^ A[SX,SY]`. -/
def execLxor (d t : LaneRef) : State → Outcome :=
  command (.lxor d t) fun s => withLane d s fun a => withLane t s fun b => putLane d (a ^^^ b) s

/-- LAND (R111): `A[DX,DY] <- A[DX,DY] & A[SX,SY]`. -/
def execLand (d t : LaneRef) : State → Outcome :=
  command (.land d t) fun s => withLane d s fun a => withLane t s fun b => putLane d (a &&& b) s

/-- LNOT (R112): `A[DX,DY] <- ~A[DX,DY]`. -/
def execLnot (d : LaneRef) : State → Outcome :=
  command (.lnot d) fun s => withLane d s fun a => putLane d (~~~a) s

/-- LROL (R113): `A[DX,DY] <- rotl64(A[SX,SY], n mod 64)`; `n` is unsigned (R73). -/
def execLrol (d t : LaneRef) (n : BitVec 12) : State → Outcome :=
  command (.lrol d t n) fun s => withLane t s fun a => putLane d (rotl64 a n.toNat) s

/-- LDL (R114): `A[DX,DY] <- byteToLong(p)`. -/
def execLdl (d : LaneRef) : State → Outcome :=
  command (.ldl d) fun s => putLane d (byteToLong s.payload) s

/-- STL (R115): `emit(longToByte(A[DX,DY]))`. -/
def execStl (d : LaneRef) : State → Outcome :=
  command (.stl d) fun s => withLane d s fun a => .next (emit (longToByte a) s)

end Sys2Proof.Machine
end

