-- ==== Sys2Proof/Machine/RoundConstants.lean ====
section
/-! DEFINITION. The round-constant generator and iota (42_round_constants.md). -/
namespace Sys2Proof.Machine

/-- One advance (R160): `((R << 1) ^ ((R >> 7) * 0x71)) mod 256`. -/
def lfsrStep (r : Byte) : Byte := (r <<< 1) ^^^ ((r >>> 7) * Config.lfsrPoly)

/-- Iteration `j` of iota (R163): advance first; if bit 1 of the new value is set, flip bit `2^j - 1`. -/
def iotaStep (c : Lane × Byte) (j : Nat) : Lane × Byte :=
  let r := lfsrStep c.2
  (if r &&& Config.lfsrTap ≠ 0#8 then c.1 ^^^ (1#64 <<< (2 ^ j - 1)) else c.1, r)

/-- The seven iterations of iota on lane (0,0) and the LFSR (R163). -/
def iotaLane (a : Lane) (r : Byte) : Lane × Byte :=
  (List.range Config.rcBitsPerRound).foldl iotaStep (a, r)

/-- `iota(A, R)` (R163): only lane (0,0) and the LFSR change. -/
def iota (A : Cube) (r : Byte) : Cube × Byte :=
  let q := iotaLane (laneAt A 0) r
  (A.setIfInBounds 0 q.1, q.2)

/-- IOTA (R164): `(A, R) <- iota(A, R)`, which reads and writes bytes 0 to 7 only (R46). It does not seed `R`. -/
def execIota : State → Outcome :=
  command .iota fun s => withBytes 0 Config.laneBytes s fun b =>
    let q := iotaLane (byteToLong b) s.R
    putBytes 0 (longToByte q.1) (setR q.2 s)

/-- RCINIT (R167): `R <- 0x01`. -/
def execRcinit : State → Outcome :=
  command .rcinit fun s => .next (setR Config.lfsrSeed s)

end Sys2Proof.Machine
end

