-- ==== Sys2Proof/Machine/Permutation.lean ====
section
/-! DEFINITION. The step mappings, the round and the permutation (41_permutation.md). -/
namespace Sys2Proof.Machine

/-! ### The mappings -/

/-- The parity lane `P[x]` (R131). -/
def parity (A : Cube) (x : Nat) : Lane := lane A x 0 ^^^ lane A x 1 ^^^ lane A x 2 ^^^ lane A x 3 ^^^ lane A x 4

/-- `theta(A)` (R131): all five `P[x]` from the array before the step, then all 25 results from those. -/
def theta (A : Cube) : Cube :=
  let P : List Lane := (List.range 5).map (parity A)
  let D : List Lane := (List.range 5).map fun x =>
    P.getD ((x + 4) % 5) 0#64 ^^^ rotl64 (P.getD ((x + 1) % 5) 0#64) 1
  cubeOf fun l => laneAt A l ^^^ D.getD (l % 5) 0#64

/-- Where the chain of rho-and-pi stands: the coordinate, the carried lane and the array so far (R133). -/
structure Chain where
  x : Nat
  y : Nat
  cur : Lane
  A : Cube
deriving DecidableEq, Repr

/-- Chain step `t` (R133): save the lane at the destination, overwrite it with the rotated source, carry on from it. -/
def chainStep (c : Chain) (t : Nat) : Chain :=
  let l := laneIndex c.y ((2 * c.x + 3 * c.y) % 5)
  { x := c.y
    y := (2 * c.x + 3 * c.y) % 5
    cur := laneAt c.A l
    A := c.A.setIfInBounds l (rotl64 c.cur ((t + 1) * (t + 2) / 2)) }

/-- `rhopi(A)` (R133): the 24 chain steps from (1,0). -/
def rhopi (A : Cube) : Cube := ((List.range 24).foldl chainStep ⟨1, 0, lane A 1 0, A⟩).A

/-- `chi(A)` (R136): every lane from the array before the step, which is the row's snapshot. -/
def chi (A : Cube) : Cube :=
  cubeOf fun l =>
    lane A (l % 5) (l / 5) ^^^ (~~~(lane A ((l + 1) % 5) (l / 5)) &&& lane A ((l + 2) % 5) (l / 5))

/-- `round(A, R)` (R138): theta, rho-and-pi, chi, iota. -/
def roundStep (c : Cube × Byte) : Cube × Byte := iota (chi (rhopi (theta c.1))) c.2

/-- `n` rounds, the LFSR carried on from one to the next (R140). -/
def rounds : Nat → Cube × Byte → Cube × Byte
  | 0, c => c
  | n + 1, c => rounds n (roundStep c)

/-- `permute` (R140) on the lanes: seed the LFSR, run 24 rounds. -/
def permute (A : Cube) : Cube × Byte := rounds Config.nRounds (A, Config.lfsrSeed)

/-! ### The commands -/

/-- Put an array and the LFSR value that came with it back into the state. -/
def putCubeAndR (q : Cube × Byte) (s : State) : Outcome := putCube q.1 (setR q.2 s)

/-- THETA (R132): `A <- theta(A)`. -/
def execTheta : State → Outcome :=
  command .theta fun s => withCube s fun A => putCube (theta A) s

/-- RHOPI (R135): `A <- rhopi(A)`. -/
def execRhopi : State → Outcome :=
  command .rhopi fun s => withCube s fun A => putCube (rhopi A) s

/-- CHI (R137): `A <- chi(A)`. -/
def execChi : State → Outcome :=
  command .chi fun s => withCube s fun A => putCube (chi A) s

/-- ROUND (R139): `(A, R) <- round(A, R)`, with the `R` it finds. -/
def execRound : State → Outcome :=
  command .round fun s => withCube s fun A => putCubeAndR (roundStep (A, s.R)) s

/-- PERMUTE (R141): `(S, R) <- permute(S)`. -/
def execPermute : State → Outcome :=
  command .permute fun s => withCube s fun A => putCubeAndR (permute A) s

end Sys2Proof.Machine
end

