-- ==== Sys2Proof/Machine/Sponge.lean ====
section
/-! DEFINITION. State and block movement (43_sponge.md sections 1 and 2). -/
namespace Sys2Proof.Machine

/-- INIT (R180): `S[i] <- 0x00` for all 200 bytes; `R` is not seeded. -/
def execInit : State → Outcome :=
  command .init fun s => putBytes 0 (List.replicate Config.stateBytes 0x00#8) s

/-- ABSORB (R190): XOR the block into the first 136 bytes, then permute. -/
def execAbsorb : State → Outcome :=
  command .absorb fun s => withBytes 0 Config.stateBytes s fun b =>
    putCubeAndR (permute (unflatten (xorN b s.payload Config.rateBytes))) s

/-- SQUEEZE (R192): emit the first 136 bytes as they stand before the permutation, then permute. -/
def execSqueeze : State → Outcome :=
  command .squeeze fun s => withBytes 0 Config.rateBytes s fun o =>
    withCube s fun A => putCubeAndR (permute A) (emit o s)

/-- LDS (R181): `MemWrite(0, 200, p)`. -/
def execLds : State → Outcome :=
  command .lds fun s => putBytes 0 s.payload s

/-- STS (R182): `emit(MemRead(0, 200))`. -/
def execSts : State → Outcome :=
  command .sts fun s => withBytes 0 Config.stateBytes s fun b => .next (emit b s)

end Sys2Proof.Machine
end

