-- ==== Sys2Proof/Machine/Dispatch.lean ====
section
/-! DEFINITION. One arm a command: exec calls its meaning. -/
namespace Sys2Proof.Machine

def exec (i : Instr) (s : State) : Host.Outcome State Fault Refusal :=
  match i with
  | .lxor d t => Sys2Proof.Machine.execLxor d t s
  | .land d t => Sys2Proof.Machine.execLand d t s
  | .lnot d => Sys2Proof.Machine.execLnot d s
  | .lrol d t n => Sys2Proof.Machine.execLrol d t n s
  | .ldl d => Sys2Proof.Machine.execLdl d s
  | .stl d => Sys2Proof.Machine.execStl d s
  | .theta => Sys2Proof.Machine.execTheta s
  | .rhopi => Sys2Proof.Machine.execRhopi s
  | .chi => Sys2Proof.Machine.execChi s
  | .iota => Sys2Proof.Machine.execIota s
  | .round => Sys2Proof.Machine.execRound s
  | .permute => Sys2Proof.Machine.execPermute s
  | .rcinit => Sys2Proof.Machine.execRcinit s
  | .init => Sys2Proof.Machine.execInit s
  | .absorb => Sys2Proof.Machine.execAbsorb s
  | .squeeze => Sys2Proof.Machine.execSqueeze s
  | .lds => Sys2Proof.Machine.execLds s
  | .sts => Sys2Proof.Machine.execSts s

end Sys2Proof.Machine
end

