-- ==== Sys2Proof/Machine/Port.lean ====
section
/-! DEFINITION. The engine's interfaces (R60): what becomes of one event of the host. Step.lean only calls it. -/
namespace Sys2Proof.Machine

/-- Take the transaction's payload in; nothing has been emitted yet. -/
def present (p : List Byte) (s : State) : State := { s with payload := p, output := [] }

/-- Hand the output of the transaction just finished to the host and clear the port (R60, log entry 3). -/
def answerOutput (s : State) : State :=
  { s with payload := [], output := [], answers := s.answers ++ [.output s.output] }

/-- End a transaction: answer it wherever the command gave a next state. -/
def complete : Outcome → Outcome
  | .next s => .next (answerOutput s)
  | .fault f => .fault f
  | .refused r => .refused r

/-- One command transaction `(w, p)` (R61, R227). -/
def transaction (w : Word) (p : List Byte) (s : State) : Outcome :=
  match decode w with
  | .ok i => complete (exec i (present p s))
  | .error _ => complete (.next (rejectWord (present p s)))

/-- A status read (R63): the host gets `STATUS`, and nothing else changes. -/
def readStatus (s : State) : State := { s with answers := s.answers ++ [.status (statusWord s)] }

/-- What the host does next happens; with nothing to do the engine is idle and keeps all state (R238, log entry 4). -/
def serve (s : State) : Outcome :=
  match s.pending with
  | [] => .next s
  | .command w p :: rest => transaction w p { s with pending := rest }
  | .readStatus :: rest => .next (readStatus { s with pending := rest })
  | .reset :: rest => .next (hostReset { s with pending := rest })

/-- A payload of zero bytes of the length the word's command requires; none for an illegal word. -/
def zeroPayload (w : Word) : List Byte :=
  match decode w with
  | .ok i => List.replicate (payloadBytes i) 0x00#8
  | .error _ => []

/-- The host presents `w` next, with a payload of zeros (log entry 7). -/
def presentWord (w : Word) (s : State) : State :=
  { s with pending := .command w (zeroPayload w) :: s.pending }

end Sys2Proof.Machine
end

