-- ==== Sys2Proof/Machine/Protocol.lean ====
section
/-! DEFINITION. The host's side, normative by R5: the pseudo-instructions and the written form of commands (R79,
R80), programs and their runs (R64), and the digest protocol (R196 to R203). No step of the engine uses it. -/
namespace Sys2Proof.Machine

/-! ### Programs (R64) -/

/-- Run the host's events from a state, one step each, with nothing answered before (R64). -/
def runEvents (es : List HostEvent) (s : State) : Outcome :=
  Host.Core.run Sys2Proof.core es.length { s with pending := es, answers := [] }

/-- The output bytes in one answer. -/
def answerBytes : Answer → List Byte
  | .output o => o
  | .status _ => []

/-- The concatenation, in order, of the outputs of a run (R64). -/
def runOutput (s : State) : List Byte := s.answers.flatMap answerBytes

/-! ### Padding and blocks (R197, R198) -/

/-- `L = (floor(n / r) + 1) * r` (R197, conflicts C5 and C6). -/
def paddedLength (n : Nat) : Nat := (n / Config.rateBytes + 1) * Config.rateBytes

/-- `pad(M)` (R197): zero-fill to `paddedLength`, then XOR in the two marks (conflict C7). -/
def pad (M : List Byte) : List Byte :=
  let P := M ++ List.replicate (paddedLength M.length - M.length) 0x00#8
  (P.modify M.length (· ^^^ Config.padFirst)).modify (paddedLength M.length - 1) (· ^^^ Config.padLast)

/-- Block `k` is bytes `136*k` to `136*k + 135` of the padded message (R198). -/
def blocks (P : List Byte) : List (List Byte) :=
  (List.range (P.length / Config.rateBytes)).map fun k => (P.drop (Config.rateBytes * k)).take Config.rateBytes

/-! ### The digest (R199 to R201) -/

/-- The program `DIGEST(M)` (R201): INIT, one ABSORB a block, one SQUEEZE. -/
def digestProgram (M : List Byte) : List HostEvent :=
  .command (encode .init) [] ::
    (blocks (pad M)).map (fun b => HostEvent.command (encode .absorb) b) ++ [.command (encode .squeeze) []]

/-- What the host keeps of the output of a run of `DIGEST(M)`: the first 32 bytes (R201). -/
def truncate (o : List Byte) : List Byte := o.take Config.digestBytes

/-- The 200 bytes that ABSORB of a block leaves in `S` (R190). -/
def absorbBytes (b p : List Byte) : List Byte :=
  flatten (permute (unflatten (xorN b p Config.rateBytes))).1

/-- `digest(M)` as a function of the message alone: `S[0..31]` as it stands after the last ABSORB (R201). -/
def digest (M : List Byte) : List Byte :=
  truncate ((blocks (pad M)).foldl absorbBytes (List.replicate Config.stateBytes 0x00#8))

/-! ### Written forms (R79, R80) -/

/-- `LMOV (dx,dy), (sx,sy)` (R80). -/
def lmov (d s : LaneRef) : Instr := .lrol d s 0#12

/-- `LCLR (dx,dy)` (R80). -/
def lclr (d : LaneRef) : Instr := .lxor d d

/-- `(x,y)` in decimal (R79). -/
def laneText (d : LaneRef) : String := "(" ++ Nat.repr d.x.toNat ++ "," ++ Nat.repr d.y.toNat ++ ")"

/-- The written form of a command before its payload (R79). -/
def commandText : Instr → String
  | .lxor d s => "LXOR " ++ laneText d ++ ", " ++ laneText s
  | .land d s => "LAND " ++ laneText d ++ ", " ++ laneText s
  | .lnot d => "LNOT " ++ laneText d
  | .lrol d s n => "LROL " ++ laneText d ++ ", " ++ laneText s ++ ", " ++ Nat.repr n.toNat
  | .ldl d => "LDL " ++ laneText d
  | .stl d => "STL " ++ laneText d
  | .theta => "THETA"
  | .rhopi => "RHOPI"
  | .chi => "CHI"
  | .iota => "IOTA"
  | .round => "ROUND"
  | .permute => "PERMUTE"
  | .rcinit => "RCINIT"
  | .init => "INIT"
  | .absorb => "ABSORB"
  | .squeeze => "SQUEEZE"
  | .lds => "LDS"
  | .sts => "STS"

/-- A byte as a pair of hexadecimal digits (R79). -/
def byteText (b : Byte) : String :=
  let digit := fun n => "0123456789ABCDEF".toList.getD n '0'
  String.ofList [digit (b.toNat / 16), digit (b.toNat % 16)]

/-- Bytes in buffer order (R79). -/
def bytesText (l : List Byte) : String := String.intercalate " " (l.map byteText)

/-- A command with its payload (R79): after a comma where it follows an operand. -/
def transactionText (i : Instr) (p : List Byte) : String :=
  if p = [] then commandText i
  else commandText i ++ (if usedLanes i = [] then " " else ", ") ++ bytesText p

/-- An output as it is written after its command (R79). -/
def outputText (o : List Byte) : String := if o = [] then "" else "-> " ++ bytesText o

end Sys2Proof.Machine
end

