-- ==== Sys2Proof/Safety.lean ====
section
/-! DEFINITION. The words the statements use: the invariant of every run, when a run is clean, when a command
executes, and what it leaves unchanged. -/
namespace Sys2Proof.Machine

/-- The invariant: `S` in canonical form, `R` never 0x00 (R36), and `CAUSE` 0 exactly while `ERR` is 0 (R28, V7). -/
abbrev Inv (s : State) : Prop :=
  Memory.wf s.S ∧ s.R ≠ 0x00#8 ∧ (s.ERR = false ↔ s.CAUSE = .noFault)

/-- A run is clean when `ERR = 0` at its end (R257). -/
abbrev Clean (s : State) : Prop := s.ERR = false

/-- When a command executes (R227 item 5): no fault stands, its lanes exist, its payload has the required length. -/
abbrev Ready (i : Instr) (s : State) : Prop :=
  s.ERR = false ∧ i.wf = true ∧ s.payload.length = payloadBytes i

/-- `ERR` and `CAUSE`, the payload and the host's side are as before. -/
abbrev Kept (s t : State) : Prop :=
  t.ERR = s.ERR ∧ t.CAUSE = s.CAUSE ∧ t.payload = s.payload ∧ t.pending = s.pending ∧ t.answers = s.answers

/-- Every byte of `S` outside the `n` bytes from `addr` reads as before. -/
def SameOutside (s t : State) (addr n : Nat) : Prop :=
  ∀ a, a < addr ∨ addr + n ≤ a → Memory.read t.S a = Memory.read s.S a

/-- Every byte of `S` reads as in the other state. -/
def SameBytes (s t : State) : Prop := ∀ a, Memory.read t.S a = Memory.read s.S a

/-- The state `s` with the transaction at the head of the host's list over and answered with `o`. -/
def afterAnswer (s : State) (rest : List HostEvent) (o : List Byte) : State :=
  { s with pending := rest, payload := [], output := [], answers := s.answers ++ [.output o] }

/-- `n` executions of one command in a row. -/
def execTimes : Nat → Instr → State → Outcome
  | 0, _, s => .next s
  | n + 1, i, s =>
    match exec i s with
    | .next t => execTimes n i t
    | .fault f => .fault f
    | .refused r => .refused r

/-- The bytes of `S` a command may write, as an address and a count (R46). -/
def footprint : Instr → Nat × Nat
  | .lxor d _ => (laneOffset d, 8)
  | .land d _ => (laneOffset d, 8)
  | .lnot d => (laneOffset d, 8)
  | .lrol d _ _ => (laneOffset d, 8)
  | .ldl d => (laneOffset d, 8)
  | .stl _ => (0, 0)
  | .theta => (0, 200)
  | .rhopi => (8, 192)
  | .chi => (0, 200)
  | .iota => (0, 8)
  | .round => (0, 200)
  | .permute => (0, 200)
  | .rcinit => (0, 0)
  | .init => (0, 200)
  | .absorb => (0, 200)
  | .squeeze => (0, 200)
  | .lds => (0, 200)
  | .sts => (0, 0)

/-- A row of rule R134's table: source, destination and rotate amount. -/
structure RhopiRow where
  sx : Nat
  sy : Nat
  dx : Nat
  dy : Nat
  n : Nat
deriving DecidableEq, Repr

/-- Rule R134's table, chain steps 0 to 23, with the amounts modulo 64. -/
def rhopiTable : List RhopiRow :=
  [⟨1, 0, 0, 2, 1⟩, ⟨0, 2, 2, 1, 3⟩, ⟨2, 1, 1, 2, 6⟩, ⟨1, 2, 2, 3, 10⟩, ⟨2, 3, 3, 3, 15⟩, ⟨3, 3, 3, 0, 21⟩,
   ⟨3, 0, 0, 1, 28⟩, ⟨0, 1, 1, 3, 36⟩, ⟨1, 3, 3, 1, 45⟩, ⟨3, 1, 1, 4, 55⟩, ⟨1, 4, 4, 4, 2⟩, ⟨4, 4, 4, 0, 14⟩,
   ⟨4, 0, 0, 3, 27⟩, ⟨0, 3, 3, 4, 41⟩, ⟨3, 4, 4, 3, 56⟩, ⟨4, 3, 3, 2, 8⟩, ⟨3, 2, 2, 2, 25⟩, ⟨2, 2, 2, 0, 43⟩,
   ⟨2, 0, 0, 4, 62⟩, ⟨0, 4, 4, 2, 18⟩, ⟨4, 2, 2, 4, 39⟩, ⟨2, 4, 4, 1, 61⟩, ⟨4, 1, 1, 1, 20⟩, ⟨1, 1, 1, 0, 44⟩]

/-- A row of rule R166's table: `R` before the round, the round constant, `R` after. -/
structure RoundConstantRow where
  before : Byte
  rc : Lane
  after : Byte
deriving DecidableEq, Repr

/-- Rule R166's table, rounds 0 to 23. -/
def roundConstantTable : List RoundConstantRow :=
  [⟨0x01, 0x0000000000000001, 0x80⟩, ⟨0x80, 0x0000000000008082, 0xD8⟩, ⟨0xD8, 0x800000000000808A, 0x1A⟩,
   ⟨0x1A, 0x8000000080008000, 0xDF⟩, ⟨0xDF, 0x000000000000808B, 0x09⟩, ⟨0x09, 0x0000000080000001, 0x35⟩,
   ⟨0x35, 0x8000000080008081, 0x4F⟩, ⟨0x4F, 0x8000000000008009, 0xCA⟩, ⟨0xCA, 0x000000000000008A, 0x70⟩,
   ⟨0x70, 0x0000000000000088, 0x41⟩, ⟨0x41, 0x0000000080008009, 0xEC⟩, ⟨0xEC, 0x000000008000000A, 0xD5⟩,
   ⟨0xD5, 0x000000008000808B, 0xCD⟩, ⟨0xCD, 0x800000000000008B, 0x63⟩, ⟨0x63, 0x8000000000008089, 0xAB⟩,
   ⟨0xAB, 0x8000000000008003, 0xAA⟩, ⟨0xAA, 0x8000000000008002, 0x2A⟩, ⟨0x2A, 0x8000000000000080, 0xF2⟩,
   ⟨0xF2, 0x000000000000800A, 0xE8⟩, ⟨0xE8, 0x800000008000000A, 0x37⟩, ⟨0x37, 0x8000000080008081, 0x3E⟩,
   ⟨0x3E, 0x8000000000008080, 0x0B⟩, ⟨0x0B, 0x0000000080000001, 0x44⟩, ⟨0x44, 0x8000000080008008, 0x8E⟩]

end Sys2Proof.Machine
end

