-- ==== Sys2Proof/Certificates/Slice0/Obligations.lean ====
section
/-! DEFINITION. The statements for the provers. The lanes are bytes of `S` (R23), so a frame over the bytes of `S`
is a frame over the lanes. -/
open Sys2Proof Sys2Proof.Machine

/-! ### Encoding (30_encoding.md) -/

/-- Decoding the word of a command gives that command back, for every command and every operand value its fields
can hold, 5, 6 and 7 included (R66 to R71, R77). -/
def Obligations.DecodeOfEncodeIsTheCommand : Prop :=
  ∀ i : Instr, decode (encode i) = .ok i

/-- A word that decodes is the word of the command it decodes to: each command has one word. -/
def Obligations.EncodeOfDecodeIsTheWord : Prop :=
  ∀ (w : Word) (i : Instr), decode w = .ok i → encode i = w

/-- R71 and R76 against the decoder: a word decodes to the command of a row exactly when `(w & mask) = match`, no
two rows match one word, a word that matches no row is rejected, and the rows' payload and output lengths are
those of R62. -/
def Obligations.DecodeFollowsTheOpcodeTable : Prop :=
  (∀ w : Word, ∀ r ∈ opcodeTable,
    (w &&& r.mask = r.pattern ↔ ∃ i, decode w = .ok i ∧ mnemonic i = r.mnemonic)) ∧
  (∀ w : Word, ∀ r ∈ opcodeTable, ∀ r' ∈ opcodeTable,
    w &&& r.mask = r.pattern → w &&& r'.mask = r'.pattern → r = r') ∧
  (∀ w : Word, (∀ r ∈ opcodeTable, w &&& r.mask ≠ r.pattern) ↔ ∃ e, decode w = .error e) ∧
  (∀ i : Instr, ∃ r ∈ opcodeTable,
    r.mnemonic = mnemonic i ∧ r.payload = payloadBytes i ∧ r.output = outputBytes i)

/-- Where the operands stand in the word: `DX` 23:21, `DY` 20:18, `SX` 17:15, `SY` 14:12, `IMM12` 11:0 (R66, R72,
R73). -/
def Obligations.OperandsComeFromTheirFields : Prop :=
  (∀ (w : Word) (d s : LaneRef) (n : BitVec 12),
    decode w = .ok (.lxor d s) ∨ decode w = .ok (.land d s) ∨ decode w = .ok (.lrol d s n) →
      d.x.toNat = w.toNat / 2 ^ 21 % 8 ∧ d.y.toNat = w.toNat / 2 ^ 18 % 8 ∧
      s.x.toNat = w.toNat / 2 ^ 15 % 8 ∧ s.y.toNat = w.toNat / 2 ^ 12 % 8) ∧
  (∀ (w : Word) (d s : LaneRef) (n : BitVec 12),
    decode w = .ok (.lrol d s n) → n.toNat = w.toNat % 2 ^ 12) ∧
  (∀ (w : Word) (d : LaneRef),
    decode w = .ok (.lnot d) ∨ decode w = .ok (.ldl d) ∨ decode w = .ok (.stl d) →
      d.x.toNat = w.toNat / 2 ^ 21 % 8 ∧ d.y.toNat = w.toNat / 2 ^ 18 % 8)

/-- R74 and R75: while no fault stands, a word with an unassigned `OP`, or with a 1 in a bit its format says must be
zero, faults with cause ILLEGAL_COMMAND, whatever its payload. -/
def Obligations.IllegalWordsFault : Prop :=
  ∀ (s : State) (w : Word) (p : List Byte) (rest : List HostEvent),
    s.ERR = false → s.pending = .command w p :: rest →
    (w.toNat / 2 ^ 24 ∉ [0x10, 0x11, 0x12, 0x13, 0x14, 0x15, 0x20, 0x21, 0x22, 0x23, 0x24, 0x25, 0x26,
        0x30, 0x31, 0x32, 0x33, 0x34] ∨
      (w.toNat / 2 ^ 24 ∈ [0x20, 0x21, 0x22, 0x23, 0x24, 0x25, 0x26, 0x30, 0x31, 0x32, 0x33, 0x34] ∧
        w.toNat % 2 ^ 24 ≠ 0) ∨
      (w.toNat / 2 ^ 24 ∈ [0x12, 0x14, 0x15] ∧ w.toNat % 2 ^ 18 ≠ 0) ∨
      (w.toNat / 2 ^ 24 ∈ [0x10, 0x11] ∧ w.toNat % 2 ^ 12 ≠ 0)) →
    step s = .next (afterAnswer { s with ERR := true, CAUSE := .illegalCommand } rest [])

/-- A few of the words of 95_test_vectors.md section 6.1 and 6.2, one a family and two illegal ones (a sanity check). -/
def Obligations.SampleWordsDecode : Prop :=
  decode 0x108D1000#32 = .ok (.lxor ⟨4#3, 3#3⟩ ⟨2#3, 1#3⟩) ∧
  decode 0x1329C007#32 = .ok (.lrol ⟨1#3, 2#3⟩ ⟨3#3, 4#3⟩ 7#12) ∧
  decode 0x14400000#32 = .ok (.ldl ⟨2#3, 0#3⟩) ∧
  decode 0x23000000#32 = .ok .iota ∧
  decode 0x25000000#32 = .ok .permute ∧
  decode 0x31000000#32 = .ok .absorb ∧
  decode 0x27000000#32 = .error .unassignedOpcode ∧
  decode 0x20000001#32 = .error .mustBeZeroBit

/-! ### Transactions, faults and the host (30_encoding.md section 1, 60_exceptions.md, 70_reset_and_hazards.md) -/

/-- A step runs the decoded command: a transaction whose word decodes to `i` is `exec i` with the payload presented,
after which the output is answered and the port is empty (R60, R61). That the port stands in the state and is emptied
(log entry 3), and that the host's events and answers are lists in the state (log entry 2), is the model's choice. -/
def Obligations.StepRunsTheDecodedCommand : Prop :=
  ∀ (s t : State) (w : Word) (p : List Byte) (rest : List HostEvent) (i : Instr),
    s.pending = .command w p :: rest → decode w = .ok i →
    exec i { s with pending := rest, payload := p, output := [] } = .next t →
    step s = .next { t with payload := [], output := [], answers := t.answers ++ [.output t.output] }

/-- The model never stops: from every state a step answers a next state. For a step with an event pending this is the
spec's (R61: every transaction has an outcome; R268: the engine cannot hang). That there is a step with nothing pending
is the model's choice (log entry 4); R61 and R268 do not speak of it. -/
def Obligations.StepAlwaysAnswersANextState : Prop :=
  ∀ s : State, ∃ t, step s = .next t

/-- R227: refused while `ERR = 1`, then ILLEGAL_COMMAND, then LANE_RANGE, then LENGTH, and only then executed. A
refused or faulted transaction changes nothing but `ERR` and `CAUSE` and answers an empty output; an executed one
leaves `ERR` and `CAUSE` alone and answers an output of the length of its row. -/
def Obligations.TransactionsAreExaminedInOrder : Prop :=
  ∀ (s : State) (w : Word) (p : List Byte) (rest : List HostEvent), s.pending = .command w p :: rest →
    (s.ERR = true → step s = .next (afterAnswer s rest [])) ∧
    (∀ e, s.ERR = false → decode w = .error e →
      step s = .next (afterAnswer { s with ERR := true, CAUSE := .illegalCommand } rest [])) ∧
    (∀ i, s.ERR = false → decode w = .ok i → i.wf = false →
      step s = .next (afterAnswer { s with ERR := true, CAUSE := .laneRange } rest [])) ∧
    (∀ i, s.ERR = false → decode w = .ok i → i.wf = true → p.length ≠ payloadBytes i →
      step s = .next (afterAnswer { s with ERR := true, CAUSE := .length } rest [])) ∧
    (∀ i, s.ERR = false → decode w = .ok i → i.wf = true → p.length = payloadBytes i →
      ∃ t o, step s = .next t ∧ o.length = outputBytes i ∧ t.ERR = false ∧ t.CAUSE = s.CAUSE ∧
        t.pending = rest ∧ t.answers = s.answers ++ [.output o] ∧ t.payload = [] ∧ t.output = [])

/-- R226: while `ERR = 1` every transaction is refused, whatever its word and payload: nothing changes and the output
is empty; so it is of every command's meaning; and a step that leaves this state is a reset. -/
def Obligations.EveryCommandIsRefusedWhileErr : Prop :=
  (∀ (s : State) (w : Word) (p : List Byte) (rest : List HostEvent),
    s.ERR = true → s.pending = .command w p :: rest → step s = .next (afterAnswer s rest [])) ∧
  (∀ (i : Instr) (s : State), s.ERR = true → exec i s = .next { s with output := [] }) ∧
  (∀ s t : State, s.ERR = true → step s = .next t → t.ERR = false → ∃ rest, s.pending = .reset :: rest)

/-- R222: a used coordinate above 4 faults with LANE_RANGE, before any lane is read or written and whatever the
payload. -/
def Obligations.CoordinatesAboveFourFault : Prop :=
  (∀ (d t : LaneRef) (n : BitVec 12) (s : State), s.ERR = false →
    4 < d.x.toNat ∨ 4 < d.y.toNat ∨ 4 < t.x.toNat ∨ 4 < t.y.toNat →
    exec (.lxor d t) s = .next { s with ERR := true, CAUSE := .laneRange, output := [] } ∧
    exec (.land d t) s = .next { s with ERR := true, CAUSE := .laneRange, output := [] } ∧
    exec (.lrol d t n) s = .next { s with ERR := true, CAUSE := .laneRange, output := [] }) ∧
  (∀ (d : LaneRef) (s : State), s.ERR = false → 4 < d.x.toNat ∨ 4 < d.y.toNat →
    exec (.lnot d) s = .next { s with ERR := true, CAUSE := .laneRange, output := [] } ∧
    exec (.ldl d) s = .next { s with ERR := true, CAUSE := .laneRange, output := [] } ∧
    exec (.stl d) s = .next { s with ERR := true, CAUSE := .laneRange, output := [] })

/-- R223: a payload longer or shorter than the command's required length (8 for LDL, 136 for ABSORB, 200 for LDS, none
for the others) faults with LENGTH, and nothing of it is used. -/
def Obligations.WrongPayloadLengthsFault : Prop :=
  ∀ (i : Instr) (s : State), s.ERR = false → i.wf = true →
    s.payload.length ≠
      (match i with | .ldl _ => 8 | .absorb => 136 | .lds => 200 | _ => 0) →
    exec i s = .next { s with ERR := true, CAUSE := .length, output := [] }

/-- R224: a step that sets `ERR` has no other effect: `S` and `R` are unchanged, the output is empty and `CAUSE` names
a fault. -/
def Obligations.FaultsHaveNoOtherEffect : Prop :=
  ∀ s t : State, step s = .next t → s.ERR = false → t.ERR = true →
    t.S = s.S ∧ t.R = s.R ∧ t.CAUSE ≠ .noFault ∧ t.answers = s.answers ++ [.output []]

/-- R27, R230 and R231: nothing but reset leaves a fault. Until the host resets, every step keeps `ERR`, the first
cause, `S` and `R`. -/
def Obligations.OnlyResetLeavesAFault : Prop :=
  ∀ s t : State, step s = .next t → s.ERR = true → (∀ rest, s.pending ≠ .reset :: rest) →
    t.ERR = true ∧ t.CAUSE = s.CAUSE ∧ t.S = s.S ∧ t.R = s.R

/-- R63: a status read gives `ERR | (CAUSE << 1) | (R << 8)`, is never refused, and changes nothing. -/
def Obligations.StatusReadReturnsTheStatusWord : Prop :=
  ∀ (s : State) (rest : List HostEvent), s.pending = .readStatus :: rest →
    ∃ v : Word, v.toNat = s.ERR.toNat + 2 * (causeCode s.CAUSE).toNat + 256 * s.R.toNat ∧
      step s = .next { s with pending := rest, answers := s.answers ++ [.status v] }

/-- R29: the fields of `STATUS`, with the cause codes of R221; the reserved bits read as 0. -/
def Obligations.StatusWordFields : Prop :=
  (∀ s : State, (statusWord s).getLsbD 0 = s.ERR ∧ (statusWord s).extractLsb' 1 2 = causeCode s.CAUSE ∧
    (statusWord s).extractLsb' 3 5 = 0#5 ∧ (statusWord s).extractLsb' 8 8 = s.R ∧
    (statusWord s).extractLsb' 16 16 = 0#16) ∧
  causeCode .noFault = 0#2 ∧ causeCode .illegalCommand = 1#2 ∧ causeCode .laneRange = 2#2 ∧ causeCode .length = 3#2

/-- R250: a reset, whatever `ERR`, leaves `S` all zero, `R` = 0x01, `ERR` = 0, `CAUSE` = 0, hence `STATUS` =
0x00000100. -/
def Obligations.HostResetRestoresTheResetState : Prop :=
  ∀ (s : State) (rest : List HostEvent), s.pending = .reset :: rest →
    ∃ t, step s = .next t ∧ (∀ a, Memory.read t.S a = 0x00#8) ∧ t.R = 0x01#8 ∧ t.ERR = false ∧
      t.CAUSE = .noFault ∧ statusWord t = 0x00000100#32

/-- R34: the state after reset. -/
def Obligations.ResetValues : Prop :=
  (∀ a, a < 200 → Memory.read State.reset.S a = 0x00#8) ∧ State.reset.R = 0x01#8 ∧ State.reset.ERR = false ∧
  State.reset.CAUSE = .noFault ∧ statusWord State.reset = 0x00000100#32

/-- With nothing for the host to do the engine is idle and keeps all state (R238). That such a step exists is the
model's choice (log entry 4). -/
def Obligations.IdleStepKeepsAllState : Prop :=
  ∀ s : State, s.pending = [] → step s = .next s

/-- A step takes the host's next event and no other, and what the host got back before it stays. That the host's
events and answers stand in the state is the model's choice (log entries 2 and 9). -/
def Obligations.StepTakesOneHostEvent : Prop :=
  ∀ (s t : State) (e : HostEvent) (rest : List HostEvent), s.pending = e :: rest → step s = .next t →
    t.pending = rest ∧ ∃ a : List Answer, t.answers = s.answers ++ a ∧ a.length ≤ 1

/-! ### Invariants -/

/-- The invariant holds at reset: `R` is not 0x00 and `CAUSE` and `ERR` are both 0 (R34, R36, V7), and `S` is in
canonical form. The canonical form is the model's choice (log entry 1). -/
def Obligations.InvariantHoldsAtReset : Prop := Inv State.reset

/-- Every step keeps the invariant: `S` stays in canonical form inside bytes 0 to 199, `R` is never 0x00 (R36), and
`CAUSE` is 0 exactly while `ERR` is 0 (R28, V7). The canonical form is the model's (log entry 1). -/
def Obligations.StepKeepsTheInvariant : Prop :=
  ∀ s t : State, Inv s → step s = .next t → Inv t

/-- R46: no command writes a byte of `S` outside its footprint, whether it executes, faults or is refused. -/
def Obligations.CommandsWriteOnlyTheirFootprint : Prop :=
  ∀ (i : Instr) (s t : State), exec i s = .next t → SameOutside s t (footprint i).1 (footprint i).2

/-- R25 and R161: `R` is written by IOTA, ROUND, PERMUTE, ABSORB, SQUEEZE and RCINIT, and reached by no other
command. -/
def Obligations.OnlySixCommandsWriteR : Prop :=
  ∀ (i : Instr) (s t : State), exec i s = .next t →
    i ∉ [Instr.iota, .round, .permute, .absorb, .squeeze, .rcinit] → t.R = s.R

/-! ### Lane functions (40_lane_primitives.md section 1) -/

/-- R104: with `m = n mod 64`, bit `k` of the operand becomes bit `(k + m) mod 64` of the result. -/
def Obligations.RotateMovesEachBit : Prop :=
  ∀ (v : Lane) (n k : Nat), k < 64 → (rotl64 v n).getLsbD ((k + n % 64) % 64) = v.getLsbD k

/-- R116: the source's three rotation laws. -/
def Obligations.RotationLaws : Prop :=
  (∀ v : Lane, rotl64 v 0 = v) ∧ (∀ v : Lane, rotl64 v 64 = v) ∧
  (∀ (v : Lane) (a b : Nat), rotl64 (rotl64 v a) b = rotl64 v ((a + b) % 64))

/-- R118: rotation commutes with XOR, complement and AND. -/
def Obligations.RotationIsBitwise : Prop :=
  ∀ (a b : Lane) (n : Nat), rotl64 (a ^^^ b) n = rotl64 a n ^^^ rotl64 b n ∧
    rotl64 (~~~a) n = ~~~(rotl64 a n) ∧ rotl64 (a &&& b) n = rotl64 a n &&& rotl64 b n

/-- R105 and R117: `longToByte` and `byteToLong` are inverse, and little-endian. -/
def Obligations.LaneByteConversionRoundTrips : Prop :=
  (∀ v : Lane, byteToLong (longToByte v) = v) ∧
  (∀ b : List Byte, b.length = 8 → longToByte (byteToLong b) = b) ∧
  (∀ (v : Lane) (i : Nat), i < 8 → ((longToByte v).getD i 0#8).toNat = v.toNat / 2 ^ (8 * i) % 256)

/-- R101: `xorN(a, b, n)` replaces `a[i]` by `a[i] ^ b[i]` for `i < n` and leaves the other bytes of `a`. -/
def Obligations.PartialXorChangesAPrefix : Prop :=
  ∀ (a b : List Byte) (n : Nat), n ≤ a.length → n ≤ b.length →
    (xorN a b n).length = a.length ∧
    ∀ i, i < a.length →
      (xorN a b n).getD i 0#8 = if i < n then a.getD i 0#8 ^^^ b.getD i 0#8 else a.getD i 0#8

/-! ### Lane commands (40_lane_primitives.md section 2) -/

/-- LXOR (R110): the destination lane becomes its XOR with the source lane; every byte of `S` outside it, `R`, `ERR`,
`CAUSE` and the host's side are unchanged and the output is empty. -/
def Obligations.LxorResult : Prop :=
  ∀ (d t : LaneRef) (s : State), Ready (.lxor d t) s → ∃ u, exec (.lxor d t) s = .next u ∧
    laneOf u (laneIndex d.x.toNat d.y.toNat) =
      laneOf s (laneIndex d.x.toNat d.y.toNat) ^^^ laneOf s (laneIndex t.x.toNat t.y.toNat) ∧
    SameOutside s u (laneOffset d) 8 ∧ u.R = s.R ∧ Kept s u ∧ u.output = []

/-- LAND (R111): the destination lane becomes its AND with the source lane; frame as LXOR. -/
def Obligations.LandResult : Prop :=
  ∀ (d t : LaneRef) (s : State), Ready (.land d t) s → ∃ u, exec (.land d t) s = .next u ∧
    laneOf u (laneIndex d.x.toNat d.y.toNat) =
      laneOf s (laneIndex d.x.toNat d.y.toNat) &&& laneOf s (laneIndex t.x.toNat t.y.toNat) ∧
    SameOutside s u (laneOffset d) 8 ∧ u.R = s.R ∧ Kept s u ∧ u.output = []

/-- LNOT (R112): the lane becomes its complement; frame as LXOR. -/
def Obligations.LnotResult : Prop :=
  ∀ (d : LaneRef) (s : State), Ready (.lnot d) s → ∃ u, exec (.lnot d) s = .next u ∧
    laneOf u (laneIndex d.x.toNat d.y.toNat) =
      laneOf s (laneIndex d.x.toNat d.y.toNat) ^^^ 0xFFFFFFFFFFFFFFFF#64 ∧
    SameOutside s u (laneOffset d) 8 ∧ u.R = s.R ∧ Kept s u ∧ u.output = []

/-- LROL (R113): the destination lane becomes the source lane rotated left by `n mod 64`; frame as LXOR. -/
def Obligations.LrolResult : Prop :=
  ∀ (d t : LaneRef) (n : BitVec 12) (s : State), Ready (.lrol d t n) s → ∃ u, exec (.lrol d t n) s = .next u ∧
    laneOf u (laneIndex d.x.toNat d.y.toNat) =
      (laneOf s (laneIndex t.x.toNat t.y.toNat)).rotateLeft (n.toNat % 64) ∧
    SameOutside s u (laneOffset d) 8 ∧ u.R = s.R ∧ Kept s u ∧ u.output = []

/-- LDL (R114): the payload's eight bytes become the bytes of the lane, first byte lowest; frame as LXOR. -/
def Obligations.LdlResult : Prop :=
  ∀ (d : LaneRef) (s : State), Ready (.ldl d) s → ∃ u, exec (.ldl d) s = .next u ∧
    laneOf u (laneIndex d.x.toNat d.y.toNat) = byteToLong s.payload ∧
    Memory.readBytes u.S (laneOffset d) 8 = s.payload ∧
    SameOutside s u (laneOffset d) 8 ∧ u.R = s.R ∧ Kept s u ∧ u.output = []

/-- STL (R115): the output is the eight bytes of the lane; no byte of `S` and nothing else changes. -/
def Obligations.StlResult : Prop :=
  ∀ (d : LaneRef) (s : State), Ready (.stl d) s → ∃ u, exec (.stl d) s = .next u ∧
    u.output = Memory.readBytes s.S (laneOffset d) 8 ∧
    u.output = longToByte (laneOf s (laneIndex d.x.toNat d.y.toNat)) ∧
    SameBytes s u ∧ u.R = s.R ∧ Kept s u

/-- R119: the same lane as source and destination. LXOR sets it to 0, LAND leaves it unchanged, LROL rotates it, and
none of them faults: `ERR` stays 0 and `CAUSE` as it was. (A fault of the engine is a next state too, log entry 5.) -/
def Obligations.SameLaneAsSourceAndDestination : Prop :=
  ∀ (d : LaneRef) (n : BitVec 12) (s : State), s.ERR = false → d.wf = true → s.payload = [] →
    (∃ u, exec (.lxor d d) s = .next u ∧ u.ERR = false ∧ Kept s u ∧
      laneOf u (laneIndex d.x.toNat d.y.toNat) = 0#64) ∧
    (∃ u, exec (.land d d) s = .next u ∧ u.ERR = false ∧ Kept s u ∧
      laneOf u (laneIndex d.x.toNat d.y.toNat) = laneOf s (laneIndex d.x.toNat d.y.toNat)) ∧
    (∃ u, exec (.lrol d d n) s = .next u ∧ u.ERR = false ∧ Kept s u ∧
      laneOf u (laneIndex d.x.toNat d.y.toNat) = rotl64 (laneOf s (laneIndex d.x.toNat d.y.toNat)) n.toNat)

/-- R80: LMOV copies the source lane to the destination and LCLR clears the lane, and neither writes a byte outside
it. -/
def Obligations.PseudoInstructionsCopyAndClear : Prop :=
  ∀ (d t : LaneRef) (s : State), s.ERR = false → d.wf = true → t.wf = true → s.payload = [] →
    (∃ u, exec (lmov d t) s = .next u ∧
      laneOf u (laneIndex d.x.toNat d.y.toNat) = laneOf s (laneIndex t.x.toNat t.y.toNat) ∧
      SameOutside s u (laneOffset d) 8) ∧
    (∃ u, exec (lclr d) s = .next u ∧ laneOf u (laneIndex d.x.toNat d.y.toNat) = 0#64 ∧
      SameOutside s u (laneOffset d) 8)

/-! ### The view of `S` as lanes (10_state.md section 1) -/

/-- R23: `unflatten` and `flatten` are bijections between 200-byte sequences and 5 by 5 arrays of lanes. -/
def Obligations.FlattenAndUnflattenAreInverse : Prop :=
  (∀ A : Cube, (flatten A).length = 200 ∧ unflatten (flatten A) = A) ∧
  (∀ b : List Byte, b.length = 200 → flatten (unflatten b) = b)

/-! ### The steps, the round and the permutation (41_permutation.md, 42_round_constants.md) -/

/-- THETA (R131, R132): every lane is XORed with the parity of the column before it and the rotated parity of the
column after it, all parities being those of the state before; `R`, `ERR`, `CAUSE` and the host's side stay. -/
def Obligations.ThetaResult : Prop :=
  ∀ s : State, Ready .theta s → ∃ u, exec .theta s = .next u ∧
    (∀ P : Nat → Lane, (∀ x, x < 5 → P x = laneOf s (laneIndex x 0) ^^^ laneOf s (laneIndex x 1) ^^^
        laneOf s (laneIndex x 2) ^^^ laneOf s (laneIndex x 3) ^^^ laneOf s (laneIndex x 4)) →
      ∀ x y, x < 5 → y < 5 → laneOf u (laneIndex x y) =
        laneOf s (laneIndex x y) ^^^ (P ((x + 4) % 5) ^^^ rotl64 (P ((x + 1) % 5)) 1)) ∧
    SameOutside s u 0 200 ∧ u.R = s.R ∧ Kept s u ∧ u.output = []

/-- RHOPI (R134, R135): each of the 24 destination lanes becomes its source lane rotated by the amount of R134's
table; lane (0,0) and everything else stay. -/
def Obligations.RhopiFollowsItsTable : Prop :=
  ∀ s : State, Ready .rhopi s → ∃ u, exec .rhopi s = .next u ∧
    (∀ r ∈ rhopiTable, laneOf u (laneIndex r.dx r.dy) = rotl64 (laneOf s (laneIndex r.sx r.sy)) r.n) ∧
    laneOf u (laneIndex 0 0) = laneOf s (laneIndex 0 0) ∧
    SameOutside s u 8 192 ∧ u.R = s.R ∧ Kept s u ∧ u.output = []

/-- CHI (R136, R137): lane `i` of row `j` becomes `T[i] ^ (~T[i+1] & T[i+2])` of the row before the step; frame as
THETA. -/
def Obligations.ChiResult : Prop :=
  ∀ s : State, Ready .chi s → ∃ u, exec .chi s = .next u ∧
    (∀ i j, i < 5 → j < 5 → laneOf u (laneIndex i j) = laneOf s (laneIndex i j) ^^^
      (~~~(laneOf s (laneIndex ((i + 1) % 5) j)) &&& laneOf s (laneIndex ((i + 2) % 5) j))) ∧
    SameOutside s u 0 200 ∧ u.R = s.R ∧ Kept s u ∧ u.output = []

/-- IOTA (R163, R164): bit `2^j - 1` of lane (0,0) is flipped exactly when bit 1 of the LFSR is set after advance `j`;
no other bit changes; `R` is advanced seven times; no byte of `S` outside 0 to 7 changes. -/
def Obligations.IotaResult : Prop :=
  ∀ s : State, Ready .iota s → ∃ u, exec .iota s = .next u ∧
    (∀ k, k < 64 → (laneOf u 0).getLsbD k = ((laneOf s 0).getLsbD k ^^
      (List.range 7).any fun j => decide (k = 2 ^ j - 1) && (lfsrStep^[j + 1] s.R).getLsbD 1)) ∧
    u.R = lfsrStep^[7] s.R ∧ SameOutside s u 0 8 ∧ Kept s u ∧ u.output = []

/-- RCINIT (R167): `R` becomes 0x01 and nothing else changes. -/
def Obligations.RcinitResult : Prop :=
  ∀ s : State, Ready .rcinit s → ∃ u, exec .rcinit s = .next u ∧
    u.R = 0x01#8 ∧ SameBytes s u ∧ Kept s u ∧ u.output = []

/-- R160 by cases: below 0x80 the advance doubles; from 0x80 it doubles modulo 256 and XORs 0x71. -/
def Obligations.LfsrAdvanceByCases : Prop :=
  ∀ r : Byte, (lfsrStep r).toNat = if r.toNat < 0x80 then 2 * r.toNat else (2 * r.toNat % 256) ^^^ 0x71

/-- R162: the advance is a bijection that fixes 0x00 and runs through the other 255 values in one cycle. -/
def Obligations.LfsrIsOneCycleOf255 : Prop :=
  Function.Bijective lfsrStep ∧ lfsrStep 0x00#8 = 0x00#8 ∧
  (∀ r : Byte, r ≠ 0x00#8 → lfsrStep^[255] r = r ∧ ∀ n, 0 < n → n < 255 → lfsrStep^[n] r ≠ r)

/-- The columns "R before", "RC" and "R after" of R166's table: iota generates them from the seed. -/
def Obligations.RoundConstantsFollowTheirTable : Prop :=
  ∀ k, k < 24 → ∀ r ∈ roundConstantTable[k]?,
    r.before = lfsrStep^[7 * k] 0x01#8 ∧ iotaLane 0#64 r.before = (r.rc, r.after)

/-- ROUND (R138, R139, R142 (a)): it executes, and leaves the bytes of `S` and the `R` that THETA, RHOPI, CHI, IOTA in
that order leave. -/
def Obligations.RoundIsItsFourSteps : Prop :=
  ∀ s : State, Ready .round s → ∃ u, exec .round s = .next u ∧
    (∃ u₁ u₂ u₃ u₄, exec .theta s = .next u₁ ∧ exec .rhopi u₁ = .next u₂ ∧ exec .chi u₂ = .next u₃ ∧
      exec .iota u₃ = .next u₄ ∧ SameBytes u₄ u ∧ u.R = u₄.R) ∧
    u.R = lfsrStep^[7] s.R ∧ SameOutside s u 0 200 ∧ Kept s u ∧ u.output = []

/-- PERMUTE (R140, R141, R142 (b), R165): it executes whatever `R` was, leaves `R` = 0x8E, and leaves the bytes of `S`
that RCINIT followed by 24 ROUND leave. -/
def Obligations.PermuteIsRcinitAndTwentyFourRounds : Prop :=
  ∀ s : State, Ready .permute s → ∃ u, exec .permute s = .next u ∧ u.R = 0x8E#8 ∧
    (∃ v w, exec .rcinit s = .next v ∧ execTimes 24 .round v = .next w ∧ SameBytes w u ∧ w.R = u.R) ∧
    SameOutside s u 0 200 ∧ Kept s u ∧ u.output = []

/-- R140: the 200-byte result of PERMUTE depends on the 200 bytes before it alone, not on the `R` before. -/
def Obligations.PermuteDependsOnTheBytesAlone : Prop :=
  ∀ s t : State, Ready .permute s → Ready .permute t →
    (∀ a, a < 200 → Memory.read s.S a = Memory.read t.S a) →
    ∃ u v, exec .permute s = .next u ∧ exec .permute t = .next v ∧ u.R = v.R ∧
      ∀ a, a < 200 → Memory.read u.S a = Memory.read v.S a

/-- R143: `permute` is a bijection on the 1600-bit state space. -/
def Obligations.PermuteIsABijection : Prop :=
  Function.Bijective fun A : Cube => (permute A).1

/-- R142 (c): LDS `p`; PERMUTE; STS returns `permute(p)`. -/
def Obligations.LoadPermuteStoreIsPermute : Prop :=
  ∀ (s : State) (p : List Byte), s.ERR = false → p.length = 200 →
    ∃ s₁ s₂ s₃, exec .lds { s with payload := p } = .next s₁ ∧
      exec .permute { s₁ with payload := [] } = .next s₂ ∧ exec .sts s₂ = .next s₃ ∧
      s₃.output = flatten (permute (unflatten p)).1

/-! ### State and block movement (43_sponge.md) -/

/-- INIT (R180): every byte of `S` becomes 0x00; `R`, `ERR`, `CAUSE` and the host's side stay. -/
def Obligations.InitResult : Prop :=
  ∀ s : State, Ready .init s → ∃ u, exec .init s = .next u ∧
    (∀ a, a < 200 → Memory.read u.S a = 0x00#8) ∧
    SameOutside s u 0 200 ∧ u.R = s.R ∧ Kept s u ∧ u.output = []

/-- LDS (R181): the payload's 200 bytes become `S`, byte for byte; frame as INIT. -/
def Obligations.LdsResult : Prop :=
  ∀ s : State, Ready .lds s → ∃ u, exec .lds s = .next u ∧
    Memory.readBytes u.S 0 200 = s.payload ∧
    SameOutside s u 0 200 ∧ u.R = s.R ∧ Kept s u ∧ u.output = []

/-- STS (R182): the output is the 200 bytes of `S`; nothing else changes. -/
def Obligations.StsResult : Prop :=
  ∀ s : State, Ready .sts s → ∃ u, exec .sts s = .next u ∧
    u.output = Memory.readBytes s.S 0 200 ∧ SameBytes s u ∧ u.R = s.R ∧ Kept s u

/-- ABSORB (R190): it executes, leaves `R` = 0x8E, and leaves the 200 bytes that PERMUTE leaves from any state whose
first 136 bytes are those of `S` XORed with the payload and whose other 64 bytes are those of `S`. -/
def Obligations.AbsorbXorsTheBlockAndPermutes : Prop :=
  ∀ s : State, Ready .absorb s → ∃ u, exec .absorb s = .next u ∧ u.R = 0x8E#8 ∧
    (∀ v : State, Ready .permute v →
      (∀ a, a < 136 → Memory.read v.S a = Memory.read s.S a ^^^ s.payload.getD a 0#8) →
      (∀ a, 136 ≤ a → a < 200 → Memory.read v.S a = Memory.read s.S a) →
      ∃ v', exec .permute v = .next v' ∧ ∀ a, a < 200 → Memory.read u.S a = Memory.read v'.S a) ∧
    SameOutside s u 0 200 ∧ Kept s u ∧ u.output = []

/-- SQUEEZE (R192): the output is the first 136 bytes of `S` as they were before the permutation; then `S` and `R` are
as after PERMUTE. -/
def Obligations.SqueezeEmitsTheRateAndPermutes : Prop :=
  ∀ s : State, Ready .squeeze s → ∃ u, exec .squeeze s = .next u ∧
    u.output = Memory.readBytes s.S 0 136 ∧ u.R = 0x8E#8 ∧
    (∃ v, exec .permute s = .next v ∧ SameBytes v u) ∧
    SameOutside s u 0 200 ∧ Kept s u

/-- R192: SQUEEZE never returns a capacity byte: its output is the same from two states that differ only in bytes 136
and up and in `R`. -/
def Obligations.SqueezeOutputHidesTheCapacity : Prop :=
  ∀ s t : State, Ready .squeeze s → Ready .squeeze t →
    (∀ a, a < 136 → Memory.read s.S a = Memory.read t.S a) →
    ∃ u v, exec .squeeze s = .next u ∧ exec .squeeze t = .next v ∧ u.output = v.output

/-! ### The digest protocol (43_sponge.md section 3) -/

/-- R197: the padded message begins with the message, has the length `(floor(n/136) + 1) * 136`, and ends in 0x06,
zeros and 0x80, or in the one byte 0x86 when there is only one pad byte. -/
def Obligations.PaddedMessage : Prop :=
  ∀ M : List Byte, (pad M).length = (M.length / 136 + 1) * 136 ∧
    pad M = M ++ (if M.length % 136 = 135 then [0x86#8]
      else 0x06#8 :: (List.replicate (134 - M.length % 136) 0x00#8 ++ [0x80#8]))

/-- R198: the blocks are `floor(n/136) + 1` pieces of 136 bytes that make up the padded message in order. -/
def Obligations.BlocksOfThePaddedMessage : Prop :=
  ∀ M : List Byte, (blocks (pad M)).length = M.length / 136 + 1 ∧
    (∀ b ∈ blocks (pad M), b.length = 136) ∧ (blocks (pad M)).flatten = pad M

/-- R196, R201, R202 and R203: from every state with `ERR = 0`, whatever `S` and `R`, the protocol DIGEST(M) runs to
its end, the first 32 output bytes are the function `digest M` of the message alone, and the engine is left with the
absorbed state permuted once more, `R` = 0x8E and `ERR` = 0. -/
def Obligations.DigestProtocolComputesTheDigest : Prop :=
  ∀ (M : List Byte) (s : State), s.ERR = false →
    ∃ t, runEvents (digestProgram M) s = .next t ∧ truncate (runOutput t) = digest M ∧
      (digest M).length = 32 ∧ (runOutput t).length = 136 ∧
      Memory.readBytes t.S 0 200 = flatten (permute (unflatten
        ((blocks (pad M)).foldl absorbBytes (List.replicate 200 0x00#8)))).1 ∧
      t.R = 0x8E#8 ∧ t.ERR = false ∧ t.pending = []
end

