-- ==== Sys2Proof/Laws/Memory.lean ====
section
/-! SUPPORT. The laws of `S` as memory: a read after a write, lengths, and that writes keep the canonical form. -/
namespace Sys2Proof.Machine.Memory

@[simp] theorem read_nil (a : Nat) : read [] a = Config.unlistedByte := rfl

@[simp] theorem length_readBytes (m : List Host.Cell) (addr n : Nat) : (readBytes m addr n).length = n := by
  simp [readBytes]

theorem getElem_readBytes (m : List Host.Cell) (addr n i : Nat) (h : i < (readBytes m addr n).length) :
    (readBytes m addr n)[i] = read m (addr + i) := by
  simp [readBytes]

/-- Addresses that `m` does not list read as an unlisted byte. -/
theorem read_of_forall_ne {m : List Host.Cell} {a : Nat} (h : ∀ c ∈ m, c.1 ≠ a) :
    read m a = Config.unlistedByte := by
  induction m with
  | nil => rfl
  | cons c m ih =>
    have hc := h c (by simp)
    obtain ⟨b, v⟩ := c
    simp only [read]
    rw [if_neg (fun e => hc e.symm)]
    exact ih fun c hm => h c (by simp [hm])

/-- Reading past a list that does not list the address. -/
theorem read_append_of_forall_ne {m n : List Host.Cell} {a : Nat} (h : ∀ c ∈ m, c.1 ≠ a) :
    read (m ++ n) a = read n a := by
  induction m with
  | nil => rfl
  | cons c m ih =>
    have hc := h c (by simp)
    obtain ⟨b, v⟩ := c
    simp only [List.cons_append, read]
    rw [if_neg (fun e => hc e.symm)]
    exact ih fun c hm => h c (by simp [hm])

/-- Cells further on do not matter to an address they do not list. -/
theorem read_append_of_forall_ne_right {m n : List Host.Cell} {a : Nat} (h : ∀ c ∈ n, c.1 ≠ a) :
    read (m ++ n) a = read m a := by
  induction m with
  | nil => simpa using read_of_forall_ne h
  | cons c m ih =>
    obtain ⟨b, v⟩ := c
    simp only [List.cons_append, read]
    split
    · rfl
    · exact ih

/-- Dropping cells of other addresses changes nothing. -/
theorem read_filter {m : List Host.Cell} {a : Nat} {p : Host.Cell → Bool} (h : ∀ v, p (a, v) = true) :
    read (m.filter p) a = read m a := by
  induction m with
  | nil => rfl
  | cons c m ih =>
    obtain ⟨b, v⟩ := c
    by_cases hab : a = b
    · subst hab
      simp [h v, read]
    · by_cases hp : p (b, v) = true
      · simp [hp, read, hab, ih]
      · simp [hp, read, hab, ih]

theorem mem_cells {addr : Nat} {v : List Byte} {c : Host.Cell} (h : c ∈ cells addr v) :
    addr ≤ c.1 ∧ c.1 < addr + v.length ∧ c.2 ≠ Config.unlistedByte := by
  induction v generalizing addr with
  | nil => simp [cells] at h
  | cons w v ih =>
    by_cases hw : w = Config.unlistedByte
    · rw [cells, if_pos hw] at h
      obtain ⟨h₁, h₂, h₃⟩ := ih h
      simp only [List.length_cons]
      exact ⟨by omega, by omega, h₃⟩
    · rw [cells, if_neg hw, List.mem_cons] at h
      simp only [List.length_cons]
      rcases h with rfl | h
      · exact ⟨Nat.le_refl _, by omega, hw⟩
      · obtain ⟨h₁, h₂, h₃⟩ := ih h
        exact ⟨by omega, by omega, h₃⟩

theorem read_cells (addr : Nat) (v : List Byte) (i : Nat) (h : i < v.length) :
    read (cells addr v) (addr + i) = v[i] := by
  induction v generalizing addr i with
  | nil => simp at h
  | cons w v ih =>
    cases i with
    | zero =>
      by_cases hw : w = Config.unlistedByte
      · rw [cells, if_pos hw]
        simp only [List.getElem_cons_zero, Nat.add_zero, hw]
        refine read_of_forall_ne fun c hc => ?_
        have := mem_cells hc
        omega
      · rw [cells, if_neg hw]
        simp [read]
    | succ i =>
      have hi : i < v.length := by simpa using h
      have key := ih (addr + 1) i hi
      rw [show addr + 1 + i = addr + (i + 1) by omega] at key
      by_cases hw : w = Config.unlistedByte
      · rw [cells, if_pos hw, key]
        simp
      · rw [cells, if_neg hw]
        simp only [read, List.getElem_cons_succ]
        rw [if_neg (by omega), key]

/-- A write leaves every address outside alone. -/
theorem read_writeBytes_outside (m : List Host.Cell) {addr a : Nat} {v : List Byte}
    (h : a < addr ∨ addr + v.length ≤ a) : read (writeBytes m addr v) a = read m a := by
  unfold writeBytes
  rcases h with h | h
  · rw [List.append_assoc, read_append_of_forall_ne_right]
    · exact read_filter (by simp [h])
    · intro c hc
      rcases List.mem_append.1 hc with hc | hc
      · have := mem_cells hc
        omega
      · have := (List.mem_filter.1 hc).2
        simp only [decide_eq_true_eq] at this
        omega
  · rw [read_append_of_forall_ne]
    · exact read_filter (by simp [h])
    · intro c hc
      rcases List.mem_append.1 hc with hc | hc
      · have := (List.mem_filter.1 hc).2
        simp only [decide_eq_true_eq] at this
        omega
      · have := mem_cells hc
        omega

/-- A read after a write gives what was written (R47). -/
theorem read_writeBytes_inside (m : List Host.Cell) (addr : Nat) (v : List Byte) (i : Nat) (h : i < v.length) :
    read (writeBytes m addr v) (addr + i) = v[i] := by
  unfold writeBytes
  rw [read_append_of_forall_ne_right, read_append_of_forall_ne, read_cells addr v i h]
  · intro c hc
    have := (List.mem_filter.1 hc).2
    simp only [decide_eq_true_eq] at this
    omega
  · intro c hc
    have := (List.mem_filter.1 hc).2
    simp only [decide_eq_true_eq] at this
    omega

/-- Reading back a whole write. -/
theorem readBytes_writeBytes (m : List Host.Cell) (addr : Nat) (v : List Byte) :
    readBytes (writeBytes m addr v) addr v.length = v := by
  refine List.ext_getElem (by simp) fun i h _ => ?_
  rw [getElem_readBytes, read_writeBytes_inside]

/-- Reading a part of a whole write. -/
theorem readBytes_writeBytes_part (m : List Host.Cell) (addr : Nat) (v : List Byte) (k n : Nat)
    (h : k + n ≤ v.length) : readBytes (writeBytes m addr v) (addr + k) n = (v.drop k).take n := by
  refine List.ext_getElem (by simp; omega) fun i h₁ _ => ?_
  have hi : i < n := by simpa using h₁
  rw [getElem_readBytes, Nat.add_assoc, read_writeBytes_inside m addr v (k + i) (by omega)]
  simp

/-- Equal bytes, equal sequences. -/
theorem readBytes_congr {m m' : List Host.Cell} {addr n : Nat}
    (h : ∀ a, addr ≤ a → a < addr + n → read m a = read m' a) : readBytes m addr n = readBytes m' addr n := by
  refine List.ext_getElem (by simp) fun i h₁ _ => ?_
  have hi : i < n := by simpa using h₁
  rw [getElem_readBytes, getElem_readBytes]
  exact h _ (by omega) (by omega)

theorem pairwise_cells (addr : Nat) (v : List Byte) : (cells addr v).Pairwise (fun c d => c.1 < d.1) := by
  induction v generalizing addr with
  | nil => simp [cells]
  | cons w v ih =>
    by_cases hw : w = Config.unlistedByte
    · rw [cells, if_pos hw]
      exact ih _
    · rw [cells, if_neg hw, List.pairwise_cons]
      refine ⟨fun c hc => ?_, ih _⟩
      have := mem_cells hc
      omega

/-- Every write inside `S` keeps the canonical form. -/
theorem wf_writeBytes {m : List Host.Cell} {addr : Nat} {v : List Byte} (hm : wf m)
    (h : addr + v.length ≤ Config.stateBytes) : wf (writeBytes m addr v) := by
  obtain ⟨hp, hc⟩ := hm
  constructor
  · unfold writeBytes
    rw [List.pairwise_append, List.pairwise_append]
    refine ⟨⟨hp.filter _, pairwise_cells addr v, ?_⟩, hp.filter _, ?_⟩
    · intro c h₁ d h₂
      have := (List.mem_filter.1 h₁).2
      simp only [decide_eq_true_eq] at this
      have := mem_cells h₂
      omega
    · intro c h₁ d h₂
      have h₂ := (List.mem_filter.1 h₂).2
      simp only [decide_eq_true_eq] at h₂
      rcases List.mem_append.1 h₁ with h₁ | h₁
      · have := (List.mem_filter.1 h₁).2
        simp only [decide_eq_true_eq] at this
        omega
      · have := mem_cells h₁
        omega
  · intro c hcm
    rcases List.mem_append.1 hcm with h₁ | h₁
    · rcases List.mem_append.1 h₁ with h₁ | h₁
      · exact hc c (List.mem_filter.1 h₁).1
      · have := mem_cells h₁
        exact ⟨this.2.2, by omega⟩
    · exact hc c (List.mem_filter.1 h₁).1

@[simp] theorem wf_nil : wf [] := ⟨List.Pairwise.nil, by simp⟩

end Sys2Proof.Machine.Memory
end

