-- ==== Sys2Proof/Laws/State.lean ====
section
/-! SUPPORT. One lemma a field for every named update of the state, so that no later proof unfolds a record update. -/
namespace Sys2Proof.Machine

section
variable (s : State) (m : List Host.Cell) (r : Byte) (v : List Byte) (c : Cause)

@[simp] theorem setS_S : (setS m s).S = m := rfl
@[simp] theorem setS_R : (setS m s).R = s.R := rfl
@[simp] theorem setS_ERR : (setS m s).ERR = s.ERR := rfl
@[simp] theorem setS_CAUSE : (setS m s).CAUSE = s.CAUSE := rfl
@[simp] theorem setS_payload : (setS m s).payload = s.payload := rfl
@[simp] theorem setS_output : (setS m s).output = s.output := rfl
@[simp] theorem setS_pending : (setS m s).pending = s.pending := rfl
@[simp] theorem setS_answers : (setS m s).answers = s.answers := rfl

@[simp] theorem setR_S : (setR r s).S = s.S := rfl
@[simp] theorem setR_R : (setR r s).R = r := rfl
@[simp] theorem setR_ERR : (setR r s).ERR = s.ERR := rfl
@[simp] theorem setR_CAUSE : (setR r s).CAUSE = s.CAUSE := rfl
@[simp] theorem setR_payload : (setR r s).payload = s.payload := rfl
@[simp] theorem setR_output : (setR r s).output = s.output := rfl
@[simp] theorem setR_pending : (setR r s).pending = s.pending := rfl
@[simp] theorem setR_answers : (setR r s).answers = s.answers := rfl

@[simp] theorem emit_S : (emit v s).S = s.S := rfl
@[simp] theorem emit_R : (emit v s).R = s.R := rfl
@[simp] theorem emit_ERR : (emit v s).ERR = s.ERR := rfl
@[simp] theorem emit_CAUSE : (emit v s).CAUSE = s.CAUSE := rfl
@[simp] theorem emit_payload : (emit v s).payload = s.payload := rfl
@[simp] theorem emit_output : (emit v s).output = s.output ++ v := rfl
@[simp] theorem emit_pending : (emit v s).pending = s.pending := rfl
@[simp] theorem emit_answers : (emit v s).answers = s.answers := rfl

@[simp] theorem takeFault_S : (takeFault c s).S = s.S := rfl
@[simp] theorem takeFault_R : (takeFault c s).R = s.R := rfl
@[simp] theorem takeFault_ERR : (takeFault c s).ERR = true := rfl
@[simp] theorem takeFault_CAUSE : (takeFault c s).CAUSE = c := rfl
@[simp] theorem takeFault_payload : (takeFault c s).payload = s.payload := rfl
@[simp] theorem takeFault_output : (takeFault c s).output = [] := rfl
@[simp] theorem takeFault_pending : (takeFault c s).pending = s.pending := rfl
@[simp] theorem takeFault_answers : (takeFault c s).answers = s.answers := rfl

@[simp] theorem refuseCommand_S : (refuseCommand s).S = s.S := rfl
@[simp] theorem refuseCommand_R : (refuseCommand s).R = s.R := rfl
@[simp] theorem refuseCommand_ERR : (refuseCommand s).ERR = s.ERR := rfl
@[simp] theorem refuseCommand_CAUSE : (refuseCommand s).CAUSE = s.CAUSE := rfl
@[simp] theorem refuseCommand_payload : (refuseCommand s).payload = s.payload := rfl
@[simp] theorem refuseCommand_output : (refuseCommand s).output = [] := rfl
@[simp] theorem refuseCommand_pending : (refuseCommand s).pending = s.pending := rfl
@[simp] theorem refuseCommand_answers : (refuseCommand s).answers = s.answers := rfl

@[simp] theorem hostReset_S : (hostReset s).S = [] := rfl
@[simp] theorem hostReset_R : (hostReset s).R = Config.lfsrSeed := rfl
@[simp] theorem hostReset_ERR : (hostReset s).ERR = false := rfl
@[simp] theorem hostReset_CAUSE : (hostReset s).CAUSE = .noFault := rfl
@[simp] theorem hostReset_payload : (hostReset s).payload = [] := rfl
@[simp] theorem hostReset_output : (hostReset s).output = [] := rfl
@[simp] theorem hostReset_pending : (hostReset s).pending = s.pending := rfl
@[simp] theorem hostReset_answers : (hostReset s).answers = s.answers := rfl

@[simp] theorem present_S : (present v s).S = s.S := rfl
@[simp] theorem present_R : (present v s).R = s.R := rfl
@[simp] theorem present_ERR : (present v s).ERR = s.ERR := rfl
@[simp] theorem present_CAUSE : (present v s).CAUSE = s.CAUSE := rfl
@[simp] theorem present_payload : (present v s).payload = v := rfl
@[simp] theorem present_output : (present v s).output = [] := rfl
@[simp] theorem present_pending : (present v s).pending = s.pending := rfl
@[simp] theorem present_answers : (present v s).answers = s.answers := rfl

@[simp] theorem answerOutput_S : (answerOutput s).S = s.S := rfl
@[simp] theorem answerOutput_R : (answerOutput s).R = s.R := rfl
@[simp] theorem answerOutput_ERR : (answerOutput s).ERR = s.ERR := rfl
@[simp] theorem answerOutput_CAUSE : (answerOutput s).CAUSE = s.CAUSE := rfl
@[simp] theorem answerOutput_payload : (answerOutput s).payload = [] := rfl
@[simp] theorem answerOutput_output : (answerOutput s).output = [] := rfl
@[simp] theorem answerOutput_pending : (answerOutput s).pending = s.pending := rfl
@[simp] theorem answerOutput_answers : (answerOutput s).answers = s.answers ++ [.output s.output] := rfl

@[simp] theorem readStatus_S : (readStatus s).S = s.S := rfl
@[simp] theorem readStatus_R : (readStatus s).R = s.R := rfl
@[simp] theorem readStatus_ERR : (readStatus s).ERR = s.ERR := rfl
@[simp] theorem readStatus_CAUSE : (readStatus s).CAUSE = s.CAUSE := rfl
@[simp] theorem readStatus_payload : (readStatus s).payload = s.payload := rfl
@[simp] theorem readStatus_output : (readStatus s).output = s.output := rfl
@[simp] theorem readStatus_pending : (readStatus s).pending = s.pending := rfl
@[simp] theorem readStatus_answers : (readStatus s).answers = s.answers ++ [.status (statusWord s)] := rfl
end

end Sys2Proof.Machine
end

