-- ==== Sys2Proof/Laws/Ops.lean ====
section
/-! SUPPORT. One lemma a shared operation: what it does where it answers, and that no command can leave `S`. -/
namespace Sys2Proof.Machine

/-! ### Lengths -/

@[simp] theorem length_longToByte (v : Lane) : (longToByte v).length = 8 := by simp [longToByte]

@[simp] theorem length_flatten (A : Cube) : (flatten A).length = 200 := by
  simp [flatten]

/-! ### Lanes that exist -/

theorem laneOffset_le {d : LaneRef} (h : laneExists d = true) : laneOffset d + 8 ≤ 200 := by
  simp only [laneExists, Bool.and_eq_true, decide_eq_true_eq] at h
  simp only [laneOffset, laneIndex]
  omega

/-- The lanes a command uses all exist exactly when it is well formed. -/
theorem usedLanes_all (i : Instr) : (usedLanes i).all laneExists = i.wf := by
  cases i <;> simp [usedLanes, Instr.wf, laneExists, LaneRef.wf]

/-! ### The checked accesses -/

theorem withBytes_inside {addr n : Nat} {s : State} {k : List Byte → Outcome} (h : addr + n ≤ 200) :
    withBytes addr n s k = k (Memory.readBytes s.S addr n) := if_pos h

theorem withBytes_outside {addr n : Nat} {s : State} {k : List Byte → Outcome} (h : 200 < addr + n) :
    withBytes addr n s k = .fault .addressOutsideState := if_neg (Nat.not_le.2 h)

theorem putBytes_inside {addr : Nat} {v : List Byte} {s : State} (h : addr + v.length ≤ 200) :
    putBytes addr v s = .next (setS (Memory.writeBytes s.S addr v) s) := if_pos h

theorem putBytes_outside {addr : Nat} {v : List Byte} {s : State} (h : 200 < addr + v.length) :
    putBytes addr v s = .fault .addressOutsideState := if_neg (Nat.not_le.2 h)

theorem withLane_exists {d : LaneRef} {s : State} {k : Lane → Outcome} (h : laneExists d = true) :
    withLane d s k = k (laneOf s (laneIndex d.x.toNat d.y.toNat)) := withBytes_inside (laneOffset_le h)

theorem putLane_exists {d : LaneRef} {v : Lane} {s : State} (h : laneExists d = true) :
    putLane d v s = .next (setS (Memory.writeBytes s.S (laneOffset d) (longToByte v)) s) :=
  putBytes_inside (by have := laneOffset_le h; simpa using this)

@[simp] theorem withCube_eq (s : State) (k : Cube → Outcome) :
    withCube s k = k (unflatten (Memory.readBytes s.S 0 200)) := withBytes_inside (Nat.le_refl _)

@[simp] theorem putCube_eq (A : Cube) (s : State) :
    putCube A s = .next (setS (Memory.writeBytes s.S 0 (flatten A)) s) := putBytes_inside (by simp)

@[simp] theorem putCubeAndR_eq (q : Cube × Byte) (s : State) :
    putCubeAndR q s = .next (setS (Memory.writeBytes s.S 0 (flatten q.1)) (setR q.2 s)) := by
  simp [putCubeAndR]

/-! ### The frame of a command (R227) -/

theorem command_refused {i : Instr} {f : State → Outcome} {s : State} (h : s.ERR = true) :
    command i f s = .next (refuseCommand s) := by simp [command, h]

theorem command_laneRange {i : Instr} {f : State → Outcome} {s : State} (h : s.ERR = false) (hi : i.wf = false) :
    command i f s = .next (takeFault .laneRange s) := by simp [command, h, usedLanes_all, hi]

theorem command_length {i : Instr} {f : State → Outcome} {s : State} (h : s.ERR = false) (hi : i.wf = true)
    (hp : s.payload.length ≠ payloadBytes i) : command i f s = .next (takeFault .length s) := by
  simp [command, h, usedLanes_all, hi, hp]

theorem command_executes {i : Instr} {f : State → Outcome} {s : State} (h : s.ERR = false) (hi : i.wf = true)
    (hp : s.payload.length = payloadBytes i) : command i f s = f { s with output := [] } := by
  simp [command, h, usedLanes_all, hi, hp]

/-- All that the frame of a command can do. -/
theorem command_cases (i : Instr) (f : State → Outcome) (s : State) :
    (s.ERR = true ∧ command i f s = .next (refuseCommand s)) ∨
    (s.ERR = false ∧ ∃ c, c ≠ .noFault ∧ command i f s = .next (takeFault c s)) ∨
    (s.ERR = false ∧ i.wf = true ∧ s.payload.length = payloadBytes i ∧
      command i f s = f { s with output := [] }) := by
  by_cases h : s.ERR = true
  · exact .inl ⟨h, command_refused h⟩
  have h : s.ERR = false := by simpa using h
  by_cases hi : i.wf = true
  · by_cases hp : s.payload.length = payloadBytes i
    · exact .inr (.inr ⟨h, hi, hp, command_executes h hi hp⟩)
    · exact .inr (.inl ⟨h, .length, by simp, command_length h hi hp⟩)
  · exact .inr (.inl ⟨h, .laneRange, by simp, command_laneRange h (by simpa using hi)⟩)

end Sys2Proof.Machine
end

