-- ==== Sys2Proof/Laws/Cube.lean ====
section
/-! SUPPORT. The 5 by 5 view: its lanes, its equality, and what each mapping does to the LFSR. -/
namespace Sys2Proof.Machine

theorem laneAt_eq_getElem (A : Cube) {l : Nat} (h : l < 25) : laneAt A l = A[l] := by
  have h' : l < A.toArray.toList.length := by simpa using h
  rw [laneAt, ← List.getElem_eq_getD (h := h')]
  simp

@[simp] theorem laneAt_cubeOf (f : Nat → Lane) {l : Nat} (h : l < 25) : laneAt (cubeOf f) l = f l := by
  simp [laneAt, cubeOf, List.getD_eq_getElem?_getD, h]

/-- Two arrays with the same lanes are the same array. -/
theorem cube_ext {A B : Cube} (h : ∀ l, l < 25 → laneAt A l = laneAt B l) : A = B := by
  refine Vector.ext fun l hl => ?_
  rw [← laneAt_eq_getElem A hl, ← laneAt_eq_getElem B hl, h l hl]

theorem laneAt_setIfInBounds (A : Cube) (v : Lane) {k l : Nat} (hl : l < 25) :
    laneAt (A.setIfInBounds k v) l = if k = l then v else laneAt A l := by
  rw [laneAt_eq_getElem _ hl, laneAt_eq_getElem _ hl, Vector.getElem_setIfInBounds]

/-- The view of `S` has the lanes of the state. -/
theorem laneAt_unflatten (s : State) {l : Nat} (h : l < 25) :
    laneAt (unflatten (Memory.readBytes s.S 0 200)) l = laneOf s l := by
  rw [unflatten, laneAt_cubeOf _ h, laneOf]
  congr 1
  refine List.ext_getElem (by simp; omega) fun i h₁ h₂ => ?_
  simp [Memory.getElem_readBytes]

/-! ### The LFSR -/

theorem iotaStep_snd (c : Lane × Byte) (j : Nat) : (iotaStep c j).2 = lfsrStep c.2 := rfl

theorem foldl_iotaStep_snd (l : List Nat) (c : Lane × Byte) :
    (l.foldl iotaStep c).2 = lfsrStep^[l.length] c.2 := by
  induction l generalizing c with
  | nil => rfl
  | cons j l ih => rw [List.foldl_cons, ih, iotaStep_snd]; rfl

/-- Iota advances the LFSR seven times, whatever the lane. -/
theorem iotaLane_snd (a : Lane) (r : Byte) : (iotaLane a r).2 = lfsrStep^[7] r :=
  foldl_iotaStep_snd (List.range 7) (a, r)

theorem roundStep_snd (c : Cube × Byte) : (roundStep c).2 = lfsrStep^[7] c.2 := iotaLane_snd _ _

/-- `n` rounds advance the LFSR `7 n` times, whatever the lanes. -/
theorem rounds_snd (n : Nat) (c : Cube × Byte) : (rounds n c).2 = lfsrStep^[7 * n] c.2 := by
  induction n generalizing c with
  | zero => rfl
  | succ n ih => rw [rounds, ih, roundStep_snd, ← Function.iterate_add_apply]; rfl

/-- The LFSR never reaches 0x00 from another value. -/
theorem lfsrStep_ne_zero : ∀ r : Byte, r ≠ 0x00#8 → lfsrStep r ≠ 0x00#8 := by decide

theorem lfsrStep_iterate_ne_zero (n : Nat) {r : Byte} (h : r ≠ 0x00#8) : lfsrStep^[n] r ≠ 0x00#8 := by
  induction n generalizing r with
  | zero => exact h
  | succ n ih => exact ih (lfsrStep_ne_zero r h)

end Sys2Proof.Machine
end

