-- ==== Sys2Proof/Laws/Exec.lean ====
section
/-! SUPPORT. What an executed command can do, said once for all eighteen, and what a step can do. -/
namespace Sys2Proof.Machine

/-- The state `s` with `S`, `R` and the output replaced: all that an executed command changes. -/
def withEffect (s : State) (m : List Host.Cell) (r : Byte) (o : List Byte) : State :=
  { s with S := m, R := r, output := o }

@[simp] theorem withEffect_S (s : State) (m r o) : (withEffect s m r o).S = m := rfl
@[simp] theorem withEffect_R (s : State) (m r o) : (withEffect s m r o).R = r := rfl
@[simp] theorem withEffect_ERR (s : State) (m r o) : (withEffect s m r o).ERR = s.ERR := rfl
@[simp] theorem withEffect_CAUSE (s : State) (m r o) : (withEffect s m r o).CAUSE = s.CAUSE := rfl
@[simp] theorem withEffect_payload (s : State) (m r o) : (withEffect s m r o).payload = s.payload := rfl
@[simp] theorem withEffect_output (s : State) (m r o) : (withEffect s m r o).output = o := rfl
@[simp] theorem withEffect_pending (s : State) (m r o) : (withEffect s m r o).pending = s.pending := rfl
@[simp] theorem withEffect_answers (s : State) (m r o) : (withEffect s m r o).answers = s.answers := rfl

/-- `exec` is the frame of a command around some effect. -/
theorem exec_eq_command (i : Instr) : ∃ f : State → Outcome, ∀ s, exec i s = command i f s := by
  cases i with
  | lxor d t => exact ⟨_, fun s => congrFun (execLxor.eq_1 d t) s⟩
  | land d t => exact ⟨_, fun s => congrFun (execLand.eq_1 d t) s⟩
  | lnot d => exact ⟨_, fun s => congrFun (execLnot.eq_1 d) s⟩
  | lrol d t n => exact ⟨_, fun s => congrFun (execLrol.eq_1 d t n) s⟩
  | ldl d => exact ⟨_, fun s => congrFun (execLdl.eq_1 d) s⟩
  | stl d => exact ⟨_, fun s => congrFun (execStl.eq_1 d) s⟩
  | theta => exact ⟨_, fun s => congrFun (execTheta.eq_1) s⟩
  | rhopi => exact ⟨_, fun s => congrFun (execRhopi.eq_1) s⟩
  | chi => exact ⟨_, fun s => congrFun (execChi.eq_1) s⟩
  | iota => exact ⟨_, fun s => congrFun (execIota.eq_1) s⟩
  | round => exact ⟨_, fun s => congrFun (execRound.eq_1) s⟩
  | permute => exact ⟨_, fun s => congrFun (execPermute.eq_1) s⟩
  | rcinit => exact ⟨_, fun s => congrFun (execRcinit.eq_1) s⟩
  | init => exact ⟨_, fun s => congrFun (execInit.eq_1) s⟩
  | absorb => exact ⟨_, fun s => congrFun (execAbsorb.eq_1) s⟩
  | squeeze => exact ⟨_, fun s => congrFun (execSqueeze.eq_1) s⟩
  | lds => exact ⟨_, fun s => congrFun (execLds.eq_1) s⟩
  | sts => exact ⟨_, fun s => congrFun (execSts.eq_1) s⟩

section
variable {s : State}

theorem execLxor_ready {d t : LaneRef} (h : Ready (.lxor d t) s) : exec (.lxor d t) s =
    .next (withEffect s (Memory.writeBytes s.S (laneOffset d) (longToByte
      (laneOf s (laneIndex d.x.toNat d.y.toNat) ^^^ laneOf s (laneIndex t.x.toNat t.y.toNat)))) s.R []) := by
  obtain ⟨he, hw, hp⟩ := h
  have hu : laneExists d = true ∧ laneExists t = true := by simpa [usedLanes] using (usedLanes_all (.lxor d t)).trans hw
  simp only [exec, execLxor, command_executes he hw hp, withLane_exists hu.1, withLane_exists hu.2,
    putLane_exists hu.1]
  rfl

theorem execLand_ready {d t : LaneRef} (h : Ready (.land d t) s) : exec (.land d t) s =
    .next (withEffect s (Memory.writeBytes s.S (laneOffset d) (longToByte
      (laneOf s (laneIndex d.x.toNat d.y.toNat) &&& laneOf s (laneIndex t.x.toNat t.y.toNat)))) s.R []) := by
  obtain ⟨he, hw, hp⟩ := h
  have hu : laneExists d = true ∧ laneExists t = true := by simpa [usedLanes] using (usedLanes_all (.land d t)).trans hw
  simp only [exec, execLand, command_executes he hw hp, withLane_exists hu.1, withLane_exists hu.2,
    putLane_exists hu.1]
  rfl

theorem execLnot_ready {d : LaneRef} (h : Ready (.lnot d) s) : exec (.lnot d) s =
    .next (withEffect s (Memory.writeBytes s.S (laneOffset d) (longToByte
      (~~~(laneOf s (laneIndex d.x.toNat d.y.toNat))))) s.R []) := by
  obtain ⟨he, hw, hp⟩ := h
  have hu : laneExists d = true := by simpa [usedLanes] using (usedLanes_all (.lnot d)).trans hw
  simp only [exec, execLnot, command_executes he hw hp, withLane_exists hu, putLane_exists hu]
  rfl

theorem execLrol_ready {d t : LaneRef} {n : BitVec 12} (h : Ready (.lrol d t n) s) : exec (.lrol d t n) s =
    .next (withEffect s (Memory.writeBytes s.S (laneOffset d) (longToByte
      (rotl64 (laneOf s (laneIndex t.x.toNat t.y.toNat)) n.toNat))) s.R []) := by
  obtain ⟨he, hw, hp⟩ := h
  have hu : laneExists d = true ∧ laneExists t = true := by simpa [usedLanes] using (usedLanes_all (.lrol d t n)).trans hw
  simp only [exec, execLrol, command_executes he hw hp, withLane_exists hu.2, putLane_exists hu.1]
  rfl

theorem execLdl_ready {d : LaneRef} (h : Ready (.ldl d) s) : exec (.ldl d) s =
    .next (withEffect s (Memory.writeBytes s.S (laneOffset d) (longToByte (byteToLong s.payload))) s.R []) := by
  obtain ⟨he, hw, hp⟩ := h
  have hu : laneExists d = true := by simpa [usedLanes] using (usedLanes_all (.ldl d)).trans hw
  simp only [exec, execLdl, command_executes he hw hp, putLane_exists hu]
  rfl

theorem execStl_ready {d : LaneRef} (h : Ready (.stl d) s) : exec (.stl d) s =
    .next (withEffect s s.S s.R (longToByte (laneOf s (laneIndex d.x.toNat d.y.toNat)))) := by
  obtain ⟨he, hw, hp⟩ := h
  have hu : laneExists d = true := by simpa [usedLanes] using (usedLanes_all (.stl d)).trans hw
  simp only [exec, execStl, command_executes he hw hp, withLane_exists hu]
  rfl

theorem execTheta_ready (h : Ready .theta s) : exec .theta s = .next (withEffect s
    (Memory.writeBytes s.S 0 (flatten (theta (unflatten (Memory.readBytes s.S 0 200))))) s.R []) := by
  simp only [exec, execTheta, command_executes h.1 h.2.1 h.2.2, withCube_eq, putCube_eq]
  rfl

theorem execRhopi_ready (h : Ready .rhopi s) : exec .rhopi s = .next (withEffect s
    (Memory.writeBytes s.S 0 (flatten (rhopi (unflatten (Memory.readBytes s.S 0 200))))) s.R []) := by
  simp only [exec, execRhopi, command_executes h.1 h.2.1 h.2.2, withCube_eq, putCube_eq]
  rfl

theorem execChi_ready (h : Ready .chi s) : exec .chi s = .next (withEffect s
    (Memory.writeBytes s.S 0 (flatten (chi (unflatten (Memory.readBytes s.S 0 200))))) s.R []) := by
  simp only [exec, execChi, command_executes h.1 h.2.1 h.2.2, withCube_eq, putCube_eq]
  rfl

theorem execIota_ready (h : Ready .iota s) : exec .iota s = .next (withEffect s
    (Memory.writeBytes s.S 0 (longToByte (iotaLane (laneOf s 0) s.R).1)) (iotaLane (laneOf s 0) s.R).2 []) := by
  simp only [exec, execIota, command_executes h.1 h.2.1 h.2.2]
  rw [withBytes_inside (by decide), putBytes_inside (by simp)]
  rfl

theorem execRound_ready (h : Ready .round s) : exec .round s = .next (withEffect s
    (Memory.writeBytes s.S 0 (flatten (roundStep (unflatten (Memory.readBytes s.S 0 200), s.R)).1))
    (roundStep (unflatten (Memory.readBytes s.S 0 200), s.R)).2 []) := by
  simp only [exec, execRound, command_executes h.1 h.2.1 h.2.2, withCube_eq, putCubeAndR_eq]
  rfl

theorem execPermute_ready (h : Ready .permute s) : exec .permute s = .next (withEffect s
    (Memory.writeBytes s.S 0 (flatten (permute (unflatten (Memory.readBytes s.S 0 200))).1))
    (permute (unflatten (Memory.readBytes s.S 0 200))).2 []) := by
  simp only [exec, execPermute, command_executes h.1 h.2.1 h.2.2, withCube_eq, putCubeAndR_eq]
  rfl

theorem execRcinit_ready (h : Ready .rcinit s) : exec .rcinit s = .next (withEffect s s.S 0x01#8 []) := by
  simp only [exec, execRcinit, command_executes h.1 h.2.1 h.2.2]
  rfl

theorem execInit_ready (h : Ready .init s) : exec .init s =
    .next (withEffect s (Memory.writeBytes s.S 0 (List.replicate 200 0x00#8)) s.R []) := by
  simp only [exec, execInit, command_executes h.1 h.2.1 h.2.2]
  rw [putBytes_inside (by simp)]
  rfl

theorem execAbsorb_ready (h : Ready .absorb s) : exec .absorb s = .next (withEffect s
    (Memory.writeBytes s.S 0 (flatten (permute (unflatten (xorN (Memory.readBytes s.S 0 200) s.payload 136))).1))
    (permute (unflatten (xorN (Memory.readBytes s.S 0 200) s.payload 136))).2 []) := by
  simp only [exec, execAbsorb, command_executes h.1 h.2.1 h.2.2]
  rw [withBytes_inside (Nat.le_refl _), putCubeAndR_eq]
  rfl

theorem execSqueeze_ready (h : Ready .squeeze s) : exec .squeeze s = .next (withEffect s
    (Memory.writeBytes s.S 0 (flatten (permute (unflatten (Memory.readBytes s.S 0 200))).1))
    (permute (unflatten (Memory.readBytes s.S 0 200))).2 (Memory.readBytes s.S 0 136)) := by
  simp only [exec, execSqueeze, command_executes h.1 h.2.1 h.2.2]
  rw [withBytes_inside (by decide), withCube_eq, putCubeAndR_eq]
  rfl

theorem execLds_ready (h : Ready .lds s) : exec .lds s =
    .next (withEffect s (Memory.writeBytes s.S 0 s.payload) s.R []) := by
  have hp : s.payload.length = 200 := h.2.2
  simp only [exec, execLds, command_executes h.1 h.2.1 h.2.2]
  rw [putBytes_inside (by simp [hp])]
  rfl

theorem execSts_ready (h : Ready .sts s) : exec .sts s =
    .next (withEffect s s.S s.R (Memory.readBytes s.S 0 200)) := by
  simp only [exec, execSts, command_executes h.1 h.2.1 h.2.2]
  rw [withBytes_inside (Nat.le_refl _)]
  rfl

/-- What an executed command can do: new bytes in `S` that keep the canonical form, a new `R` that is not 0x00
unless the old one was, and an output of the length the command returns. Nothing else. -/
theorem exec_ready {i : Instr} (h : Ready i s) : ∃ m r o, exec i s = .next (withEffect s m r o) ∧
    (Memory.wf s.S → Memory.wf m) ∧ (s.R ≠ 0x00#8 → r ≠ 0x00#8) ∧ o.length = outputBytes i := by
  have hd : ∀ {d : LaneRef} {v : Lane}, d.wf = true → Memory.wf s.S →
      Memory.wf (Memory.writeBytes s.S (laneOffset d) (longToByte v)) := fun hd hs =>
    Memory.wf_writeBytes hs (by rw [length_longToByte]; exact laneOffset_le hd)
  have hA : ∀ A : Cube, Memory.wf s.S → Memory.wf (Memory.writeBytes s.S 0 (flatten A)) := fun A hs =>
    Memory.wf_writeBytes hs (by simp)
  have hP : ∀ A : Cube, (permute A).2 ≠ 0x00#8 := fun A => by
    rw [permute, rounds_snd]; exact lfsrStep_iterate_ne_zero _ (r := 0x01#8) (by decide)
  have hw := h.2.1
  cases i with
  | lxor d t => exact ⟨_, _, _, execLxor_ready h, hd (by simp_all [Instr.wf]), id, rfl⟩
  | land d t => exact ⟨_, _, _, execLand_ready h, hd (by simp_all [Instr.wf]), id, rfl⟩
  | lnot d => exact ⟨_, _, _, execLnot_ready h, hd (by simp_all [Instr.wf]), id, rfl⟩
  | lrol d t n => exact ⟨_, _, _, execLrol_ready h, hd (by simp_all [Instr.wf]), id, rfl⟩
  | ldl d => exact ⟨_, _, _, execLdl_ready h, hd (by simp_all [Instr.wf]), id, rfl⟩
  | stl d => exact ⟨_, _, _, execStl_ready h, id, id, length_longToByte _⟩
  | theta => exact ⟨_, _, _, execTheta_ready h, hA _, id, rfl⟩
  | rhopi => exact ⟨_, _, _, execRhopi_ready h, hA _, id, rfl⟩
  | chi => exact ⟨_, _, _, execChi_ready h, hA _, id, rfl⟩
  | iota =>
    exact ⟨_, _, _, execIota_ready h, fun hs => Memory.wf_writeBytes hs (by rw [length_longToByte]; decide),
      fun hr => by rw [iotaLane_snd]; exact lfsrStep_iterate_ne_zero 7 hr, rfl⟩
  | round =>
    exact ⟨_, _, _, execRound_ready h, hA _,
      fun hr => by rw [roundStep_snd]; exact lfsrStep_iterate_ne_zero 7 hr, rfl⟩
  | permute => exact ⟨_, _, _, execPermute_ready h, hA _, fun _ => hP _, rfl⟩
  | rcinit => exact ⟨_, _, _, execRcinit_ready h, id, fun _ => by decide, rfl⟩
  | init => exact ⟨_, _, _, execInit_ready h, fun hs => Memory.wf_writeBytes hs (by rw [List.length_replicate]), id, rfl⟩
  | absorb => exact ⟨_, _, _, execAbsorb_ready h, hA _, fun _ => hP _, rfl⟩
  | squeeze => exact ⟨_, _, _, execSqueeze_ready h, hA _, fun _ => hP _, by simp [outputBytes]⟩
  | lds =>
    have hp : s.payload.length = 200 := h.2.2
    exact ⟨_, _, _, execLds_ready h, fun hs => Memory.wf_writeBytes hs (by simp [hp]), id, rfl⟩
  | sts => exact ⟨_, _, _, execSts_ready h, id, id, by simp [outputBytes]⟩

end

/-- All that a command whose word decoded can do (R61): it is refused, it faults, or it executes. -/
theorem exec_cases (i : Instr) (s : State) :
    (s.ERR = true ∧ exec i s = .next (refuseCommand s)) ∨
    (s.ERR = false ∧ ∃ c, c ≠ .noFault ∧ exec i s = .next (takeFault c s)) ∨
    (Ready i s ∧ ∃ m r o, exec i s = .next (withEffect s m r o) ∧
      (Memory.wf s.S → Memory.wf m) ∧ (s.R ≠ 0x00#8 → r ≠ 0x00#8) ∧ o.length = outputBytes i) := by
  obtain ⟨f, hf⟩ := exec_eq_command i
  rw [hf]
  rcases command_cases i f s with h | ⟨h, c, hc, he⟩ | ⟨h, hi, hp, -⟩
  · exact .inl h
  · exact .inr (.inl ⟨h, c, hc, he⟩)
  · exact .inr (.inr ⟨⟨h, hi, hp⟩, hf s ▸ exec_ready ⟨h, hi, hp⟩⟩)

/-- All that a word that matches no row can do. -/
theorem rejectWord_cases (s : State) :
    (s.ERR = true ∧ rejectWord s = refuseCommand s) ∨ (s.ERR = false ∧ rejectWord s = takeFault .illegalCommand s) := by
  cases h : s.ERR <;> simp [rejectWord, h]

/-- All that a step can do, by what the host does next. -/
theorem step_cases (s : State) :
    (s.pending = [] ∧ step s = .next s) ∨
    (∃ rest, s.pending = .readStatus :: rest ∧ step s = .next (readStatus { s with pending := rest })) ∨
    (∃ rest, s.pending = .reset :: rest ∧ step s = .next (hostReset { s with pending := rest })) ∨
    (∃ w p rest e, s.pending = .command w p :: rest ∧ decode w = .error e ∧
      step s = .next (answerOutput (rejectWord (present p { s with pending := rest })))) ∨
    (∃ w p rest i, s.pending = .command w p :: rest ∧ decode w = .ok i ∧
      step s = complete (exec i (present p { s with pending := rest }))) := by
  rcases hp : s.pending with _ | ⟨_ | _, rest⟩
  · exact .inl ⟨rfl, by simp [step, serve, hp]⟩
  · rename_i w p
    rcases hd : decode w with e | i
    · exact .inr (.inr (.inr (.inl ⟨w, p, rest, e, rfl, hd, by simp [step, serve, hp, transaction, hd, complete]⟩)))
    · exact .inr (.inr (.inr (.inr ⟨w, p, rest, i, rfl, hd, by simp [step, serve, hp, transaction, hd]⟩)))
  · exact .inr (.inl ⟨rest, rfl, by simp [step, serve, hp]⟩)
  · exact .inr (.inr (.inl ⟨rest, rfl, by simp [step, serve, hp]⟩))

end Sys2Proof.Machine
end

