-- ==== Sys2Proof/Laws/PerInstr.lean ====
section
/-! SUPPORT. Facts about the commands as syntax, one lemma a command: the word of a command carries its opcode in
`OP`, and assembling a word loses no field (R66). -/
namespace Sys2Proof.Laws

/-- The fields of an assembled word are what it was assembled from (R66). -/
theorem assemble_fields (op : BitVec 8) (d s : LaneRef) (n : BitVec 12) :
    opField (assemble op d s n) = op ∧ dstField (assemble op d s n) = d ∧
    srcField (assemble op d s n) = s ∧ immField (assemble op d s n) = n := by
  obtain ⟨dx, dy⟩ := d
  obtain ⟨sx, sy⟩ := s
  simp only [opField, dstField, srcField, immField, assemble, LaneRef.mk.injEq]
  refine ⟨?_, ⟨?_, ?_⟩, ⟨?_, ?_⟩, ?_⟩ <;>
    (apply BitVec.eq_of_getLsbD_eq
     intro i hi
     interval_cases i <;> simp)

namespace OpcodeField

/-- Bits 31:24 of a command's word are its `OP` value (R66, R71). -/
def Statement (i : Instr) : Prop := opField (encode i) = opcode i

theorem lxor (d s : LaneRef) : Statement (.lxor d s) := (assemble_fields _ _ _ _).1
theorem land (d s : LaneRef) : Statement (.land d s) := (assemble_fields _ _ _ _).1
theorem lnot (d : LaneRef) : Statement (.lnot d) := (assemble_fields _ _ _ _).1
theorem lrol (d s : LaneRef) (n : BitVec 12) : Statement (.lrol d s n) := (assemble_fields _ _ _ _).1
theorem ldl (d : LaneRef) : Statement (.ldl d) := (assemble_fields _ _ _ _).1
theorem stl (d : LaneRef) : Statement (.stl d) := (assemble_fields _ _ _ _).1
theorem theta : Statement .theta := (assemble_fields _ _ _ _).1
theorem rhopi : Statement .rhopi := (assemble_fields _ _ _ _).1
theorem chi : Statement .chi := (assemble_fields _ _ _ _).1
theorem iota : Statement .iota := (assemble_fields _ _ _ _).1
theorem round : Statement .round := (assemble_fields _ _ _ _).1
theorem permute : Statement .permute := (assemble_fields _ _ _ _).1
theorem rcinit : Statement .rcinit := (assemble_fields _ _ _ _).1
theorem init : Statement .init := (assemble_fields _ _ _ _).1
theorem absorb : Statement .absorb := (assemble_fields _ _ _ _).1
theorem squeeze : Statement .squeeze := (assemble_fields _ _ _ _).1
theorem lds : Statement .lds := (assemble_fields _ _ _ _).1
theorem sts : Statement .sts := (assemble_fields _ _ _ _).1

end OpcodeField
end Sys2Proof.Laws
end

