-- ==== Sys2Proof/Tests/Slice0.lean ====
section
/-! SUPPORT. The model's own tests, every expected value from 95_test_vectors.md or 96_test_vectors_permutation.md
unless a comment says otherwise, and for every statement with hypotheses a witness that meets them. -/
namespace Sys2Proof.Tests
open Sys2Proof.Machine

-- One theorem at a time: with a thread for each, the kernel evaluations outgrow the check's memory limit.
set_option Elab.async false

/-! ### Well-formedness: one ill-formed command for each check (R72) -/

theorem test_wf_refuses_dx : Instr.wf (.lnot ⟨5#3, 4#3⟩) = false := by decide
theorem test_wf_refuses_dy : Instr.wf (.stl ⟨4#3, 5#3⟩) = false := by decide
theorem test_wf_refuses_sx : Instr.wf (.land ⟨0#3, 0#3⟩ ⟨7#3, 0#3⟩) = false := by decide
theorem test_wf_refuses_sy : Instr.wf (.lrol ⟨0#3, 0#3⟩ ⟨4#3, 6#3⟩ 1#12) = false := by decide
theorem test_wf_refuses_lxor : Instr.wf (.lxor ⟨0#3, 0#3⟩ ⟨0#3, 5#3⟩) = false := by decide
theorem test_wf_refuses_ldl : Instr.wf (.ldl ⟨7#3, 7#3⟩) = false := by decide
theorem test_wf_accepts_four : Instr.wf (.lxor ⟨4#3, 4#3⟩ ⟨4#3, 4#3⟩) = true := by decide

/-! ### Decoding: 95 section 6.1, one word a command -/

theorem test_decode_lxor : decode 0x108D1000#32 = .ok (.lxor ⟨4#3, 3#3⟩ ⟨2#3, 1#3⟩) := by decide
theorem test_decode_land : decode 0x11120000#32 = .ok (.land ⟨0#3, 4#3⟩ ⟨4#3, 0#3⟩) := by decide
theorem test_decode_lnot : decode 0x126C0000#32 = .ok (.lnot ⟨3#3, 3#3⟩) := by decide
theorem test_decode_lrol : decode 0x1329C007#32 = .ok (.lrol ⟨1#3, 2#3⟩ ⟨3#3, 4#3⟩ 7#12) := by decide
theorem test_decode_lrol_top : decode 0x13924FFF#32 = .ok (.lrol ⟨4#3, 4#3⟩ ⟨4#3, 4#3⟩ 4095#12) := by decide
theorem test_decode_ldl : decode 0x14400000#32 = .ok (.ldl ⟨2#3, 0#3⟩) := by decide
theorem test_decode_stl : decode 0x15080000#32 = .ok (.stl ⟨0#3, 2#3⟩) := by decide
theorem test_decode_theta : decode 0x20000000#32 = .ok .theta := by decide
theorem test_decode_rhopi : decode 0x21000000#32 = .ok .rhopi := by decide
theorem test_decode_chi : decode 0x22000000#32 = .ok .chi := by decide
theorem test_decode_iota : decode 0x23000000#32 = .ok .iota := by decide
theorem test_decode_round : decode 0x24000000#32 = .ok .round := by decide
theorem test_decode_permute : decode 0x25000000#32 = .ok .permute := by decide
theorem test_decode_rcinit : decode 0x26000000#32 = .ok .rcinit := by decide
theorem test_decode_init : decode 0x30000000#32 = .ok .init := by decide
theorem test_decode_absorb : decode 0x31000000#32 = .ok .absorb := by decide
theorem test_decode_squeeze : decode 0x32000000#32 = .ok .squeeze := by decide
theorem test_decode_lds : decode 0x33000000#32 = .ok .lds := by decide
theorem test_decode_sts : decode 0x34000000#32 = .ok .sts := by decide

/-- LROL (1,2), (3,4), 7 written bit by bit: OP 00010011, DX 001, DY 010, SX 011, SY 100, IMM12 000000000111 (R70). -/
theorem test_decode_bits :
    decode 0b00010011001010011100000000000111#32 = .ok (.lrol ⟨1#3, 2#3⟩ ⟨3#3, 4#3⟩ 7#12) := by decide

/-- 95 section 6.2, the words that match no row. -/
theorem test_decode_rejects :
    decode 0x00000000#32 = .error .unassignedOpcode ∧ decode 0xFFFFFFFF#32 = .error .unassignedOpcode ∧
    decode 0x16000000#32 = .error .unassignedOpcode ∧ decode 0x35000000#32 = .error .unassignedOpcode ∧
    decode 0x20000001#32 = .error .mustBeZeroBit ∧ decode 0x25800000#32 = .error .mustBeZeroBit ∧
    decode 0x10008001#32 = .error .mustBeZeroBit ∧ decode 0x12008000#32 = .error .mustBeZeroBit ∧
    decode 0x14200800#32 = .error .mustBeZeroBit := by decide

theorem test_encode_words :
    encode (.lxor ⟨4#3, 3#3⟩ ⟨2#3, 1#3⟩) = 0x108D1000#32 ∧ encode (.lnot ⟨3#3, 3#3⟩) = 0x126C0000#32 ∧
    encode (.lrol ⟨1#3, 2#3⟩ ⟨3#3, 4#3⟩ 7#12) = 0x1329C007#32 ∧ encode .sts = 0x34000000#32 := by decide

/-- R71: no two rows can match one word. -/
theorem test_rows_do_not_overlap :
    opcodeTable.Pairwise fun r q => r.pattern &&& (r.mask &&& q.mask) ≠ q.pattern &&& (r.mask &&& q.mask) := by
  decide

theorem test_decodeTableWord_rows :
    ∀ r ∈ opcodeTable, (decodeTableWord 32 r.pattern.toNat).map mnemonic = some r.mnemonic := by
  decide +kernel

/-! ### Small states and what a transaction does to them -/

/-- Bytes 00 01 … C7, the bytes of `PAT`. -/
def patBytes : List Byte := (List.range 200).map (BitVec.ofNat 8)

/-- `PAT` with `R` = 0x01 and no fault. -/
def pat : State := { State.reset with S := Memory.cells 0 patBytes }

/-- The state with one transaction for the host to send. -/
def sending (w : Word) (p : List Byte) (s : State) : State := { s with pending := [.command w p] }

/-- Chosen lanes and `STATUS` after one transaction. -/
def lanesAfter (w : Word) (p : List Byte) (s : State) (ls : List Nat) : Option (List Lane × Word) :=
  match step (sending w p s) with
  | .next t => some (ls.map (laneOf t), statusWord t)
  | .fault _ => none
  | .refused _ => none

/-- What the host gets back from one transaction, and `STATUS` after it. -/
def answersAfter (w : Word) (p : List Byte) (s : State) : Option (List Answer × Word) :=
  match step (sending w p s) with
  | .next t => some (t.answers, statusWord t)
  | .fault _ => none
  | .refused _ => none

/-! ### One step of each command (95 sections 2 to 5, 96) -/

theorem test_lxor : lanesAfter 0x10008000#32 [] pat [0, 1] =
    some ([0x0808080808080808, 0x0F0E0D0C0B0A0908], 0x100) := by decide +kernel
theorem test_lxor_last_lane : lanesAfter 0x10900000#32 [] pat [24, 0] =
    some ([0xC0C0C0C0C0C0C0C0, 0x0706050403020100], 0x100) := by decide +kernel
theorem test_land : lanesAfter 0x1191A000#32 [] pat [24, 13] =
    some ([0x4746454443424140, 0x6F6E6D6C6B6A6968], 0x100) := by decide +kernel
theorem test_lnot : lanesAfter 0x12900000#32 [] pat [24, 23] =
    some ([0x38393A3B3C3D3E3F, 0xBFBEBDBCBBBAB9B8], 0x100) := by decide +kernel
theorem test_lrol : lanesAfter 0x134CC02C#32 [] pat [17, 21] =
    some ([0xAA9A8AFAEADACABA, 0xAFAEADACABAAA9A8], 0x100) := by decide +kernel
theorem test_lrol_in_place : lanesAfter 0x13208FFF#32 [] pat [1, 2] =
    some ([0x0787068605850484, 0x1716151413121110], 0x100) := by decide +kernel
theorem test_ldl : lanesAfter 0x14200000#32 [0xEF, 0xCD, 0xAB, 0x89, 0x67, 0x45, 0x23, 0x01] pat [1, 0, 2] =
    some ([0x0123456789ABCDEF, 0x0706050403020100, 0x1716151413121110], 0x100) := by decide +kernel
theorem test_stl : answersAfter 0x15900000#32 [] pat =
    some ([.output [0xC0, 0xC1, 0xC2, 0xC3, 0xC4, 0xC5, 0xC6, 0xC7]], 0x100) := by decide +kernel
theorem test_theta : lanesAfter 0x20000000#32 [] pat [0, 4, 11, 24] =
    some ([0xDEDCDAD8D6D4D2D0, 0x777573717F7D7B79, 0x161412101E1C1A18, 0x979593919F9D9B99], 0x100) := by
  decide +kernel
theorem test_rhopi : lanesAfter 0x21000000#32 [] pat [0, 1, 10, 20, 24] =
    some ([0x0706050403020100, 0x2313037363534333, 0x1E1C1A1816141210, 0x05C5854504C48444,
      0xBEBAB6B2AEAAA6A2], 0x100) := by decide +kernel
theorem test_chi : lanesAfter 0x22000000#32 [] pat [0, 3, 4, 16, 24] =
    some ([0x1716151413121110, 0x1F1E1D1C1B1A1918, 0x2F2E2D2C2B2A2928, 0x9796959493929190,
      0xCFCECDCCCBCAC9C8], 0x100) := by decide +kernel
theorem test_iota :
    lanesAfter 0x23000000#32 [] { pat with S := Memory.cells 0 (longToByte 0x0123456789ABCDEF), R := 0xD8 } [0, 1] =
    some ([0x8123456789AB4D65, 0], 0x1A00) := by decide +kernel
theorem test_iota_round_23 : lanesAfter 0x23000000#32 [] { State.reset with R := 0x44 } [0, 1] =
    some ([0x8000000080008008, 0], 0x8E00) := by decide +kernel
theorem test_round : lanesAfter 0x24000000#32 [] pat [0, 1, 9, 24] =
    some ([0x7E0C1AC8F6C4D241, 0x4A2B0BEB8BAACA6A, 0xA9C9A90928C82888, 0xDBD5CDC6FFF3EBE2], 0x8000) := by
  decide +kernel
theorem test_permute : lanesAfter 0x25000000#32 [] State.reset [0, 1, 24] =
    some ([0xF1258F7940E1DDE7, 0x84D5CCF933C0478A, 0xEAF1FF7B5CECA249], 0x8E00) := by decide +kernel
theorem test_rcinit : lanesAfter 0x26000000#32 [] { pat with R := 0x8E } [0] =
    some ([0x0706050403020100], 0x100) := by decide +kernel
theorem test_init : lanesAfter 0x30000000#32 [] { pat with R := 0x8E } [0, 1, 24] =
    some ([0, 0, 0], 0x8E00) := by decide +kernel
/-- The source's second known answer: the first four lanes after absorbing the padded "abc" are the digest S2. -/
theorem test_absorb : lanesAfter 0x31000000#32 (pad [0x61, 0x62, 0x63]) State.reset [0, 1, 2, 3] =
    some ([0xB225E24FA75D983A, 0xBD90D36B2D175C04, 0x5B529D3E6E085F85, 0x3215431145E2BF46], 0x8E00) := by
  decide +kernel
theorem test_squeeze_output : answersAfter 0x32000000#32 [] pat =
    some ([.output ((List.range 136).map (BitVec.ofNat 8))], 0x8E00) := by decide +kernel
theorem test_squeeze_permutes : lanesAfter 0x32000000#32 [] pat [0, 24] =
    some ([0x122891F5DAD57CFA, 0x070881D4E30FAE16], 0x8E00) := by decide +kernel
theorem test_lds : lanesAfter 0x33000000#32 patBytes State.reset [0, 1, 5, 24] =
    some ([0x0706050403020100, 0x0F0E0D0C0B0A0908, 0x2F2E2D2C2B2A2928, 0xC7C6C5C4C3C2C1C0], 0x100) := by
  decide +kernel
theorem test_sts : answersAfter 0x34000000#32 [] pat = some ([.output patBytes], 0x100) := by decide +kernel

/-! ### Functions (95 sections 2.1, 2.2, 3.4 and 4; 43_sponge.md) -/

theorem test_rotl64 :
    rotl64 0x0123456789ABCDEF 4 = 0x123456789ABCDEF0 ∧ rotl64 0x0123456789ABCDEF 64 = 0x0123456789ABCDEF ∧
    rotl64 0x0123456789ABCDEF 300 = 0xBCDEF0123456789A ∧ rotl64 0x8000000000000001 1 = 0x0000000000000003 := by
  decide
theorem test_longToByte :
    longToByte 0x0123456789ABCDEF = [0xEF, 0xCD, 0xAB, 0x89, 0x67, 0x45, 0x23, 0x01] ∧
    byteToLong [0x01, 0x02, 0x03, 0x04, 0x05, 0x06, 0x07, 0x08] = 0x0807060504030201 := by decide +kernel
theorem test_lfsrStep :
    lfsrStep 0x01 = 0x02 ∧ lfsrStep 0x40 = 0x80 ∧ lfsrStep 0x80 = 0x71 ∧ lfsrStep 0x71 = 0xE2 ∧
    lfsrStep 0xFF = 0x8F ∧ lfsrStep^[168] 0x01 = 0x8E := by decide +kernel
/-- The pad bytes of 95 section 7.1 for `n` = 0, 134, 135 and 136. -/
theorem test_pad :
    pad [] = 0x06 :: (List.replicate 134 0x00 ++ [0x80]) ∧
    (pad (List.replicate 134 0x61)).drop 134 = [0x06, 0x80] ∧
    (pad (List.replicate 135 0x61)).drop 135 = [0x86] ∧
    (pad (List.replicate 136 0x61)).drop 136 = 0x06 :: (List.replicate 134 0x00 ++ [0x80]) := by decide +kernel
theorem test_blocks : (blocks (pad (List.replicate 136 0x61))).map List.length = [136, 136] := by decide +kernel
/-- The source's first known answer S1. -/
theorem test_digest_empty : digest [] =
    [0xa7, 0xff, 0xc6, 0xf8, 0xbf, 0x1e, 0xd7, 0x66, 0x51, 0xc1, 0x47, 0x56, 0xa0, 0x61, 0xd6, 0x62,
     0xf5, 0x80, 0xff, 0x4d, 0xe4, 0x3b, 0x49, 0xfa, 0x82, 0xd8, 0x0a, 0x4b, 0x80, 0xf8, 0x43, 0x4a] := by
  decide +kernel
theorem test_written_form :
    transactionText (.lrol ⟨2#3, 3#3⟩ ⟨1#3, 4#3⟩ 44#12) [] = "LROL (2,3), (1,4), 44" ∧
    transactionText (.ldl ⟨1#3, 0#3⟩) [0xEF, 0xCD, 0x01] = "LDL (1,0), EF CD 01" ∧
    outputText [0x0A, 0xFF] = "-> 0A FF" := by decide +kernel

/-! ### Faults, refusal, reset (95 sections 6.2 and 6.3) -/

/-- Word, payload length and `STATUS` after, each from the reset state. -/
def faultRows : List (Word × Nat × Word) :=
  [(0x00000000, 0, 0x103), (0xFFFFFFFF, 0, 0x103), (0x27000000, 0, 0x103), (0x16000000, 0, 0x103),
   (0x35000000, 0, 0x103), (0x20000001, 0, 0x103), (0x25800000, 0, 0x103), (0x10008001, 0, 0x103),
   (0x12008000, 0, 0x103), (0x14200800, 8, 0x103), (0x12A00000, 0, 0x105), (0x10005000, 0, 0x105),
   (0x13FC0000, 0, 0x105), (0x131C0000, 0, 0x105), (0x15180000, 0, 0x105), (0x14A00000, 7, 0x105),
   (0x27000000, 5, 0x103), (0x14200000, 7, 0x107), (0x14200000, 9, 0x107), (0x14200000, 0, 0x107),
   (0x31000000, 135, 0x107), (0x31000000, 137, 0x107), (0x31000000, 200, 0x107), (0x33000000, 136, 0x107),
   (0x25000000, 1, 0x107), (0x32000000, 136, 0x107), (0x30000000, 8, 0x107)]

theorem test_faults : ∀ r ∈ faultRows,
    answersAfter r.1 (List.replicate r.2.1 0xFF) State.reset = some ([.output []], r.2.2) := by decide +kernel

/-- The engine after the fault of word 0x27000000. -/
def faulted : State := { pat with ERR := true, CAUSE := .illegalCommand }

theorem test_refusals :
    ∀ q ∈ [((0x30000000 : Word), 0), (0x34000000, 0), (0x26000000, 0), (0x12A00000, 0), (0x31000000, 3)],
      answersAfter q.1 (List.replicate q.2 0x00) faulted = some ([.output []], 0x103) := by decide +kernel

theorem test_reset_leaves_the_fault :
    step { faulted with pending := [.reset] } = .next State.reset := rfl

theorem test_status_read : step { faulted with pending := [.readStatus] } =
    .next { faulted with answers := [.status 0x00000103] } := rfl

/-- P7: a fault in the middle of a digest; the SQUEEZE and the STS after it give nothing. -/
theorem test_fault_in_a_digest :
    (match runEvents [.command 0x30000000 [], .command 0x31000000 (List.replicate 135 0x00),
        .command 0x32000000 [], .command 0x34000000 [], .readStatus] pat with
      | .next t => some (t.answers, t.S)
      | .fault _ => none
      | .refused _ => none) =
    some ([.output [], .output [], .output [], .output [], .status 0x00000107], []) := by decide +kernel

/-! ### The fixed names: withFetchWord, reset and the core -/

/-- Every row's word runs as the first command after reset and answers an output of its length. -/
theorem test_withFetchWord_runs_every_row : ∀ r ∈ opcodeTable,
    (match step (State.reset.withFetchWord 32 r.pattern.toNat) with
      | .next t => t.ERR == false && (t.answers.flatMap answerBytes).length == r.output && t.pending == []
      | .fault _ => false
      | .refused _ => false) = true := by decide +kernel

theorem test_reset_memory_wf : Memory.wf State.reset.S := by decide
theorem test_pat_memory_wf : Memory.wf pat.S := by decide +kernel
theorem test_write_of_zero_removes_the_cell :
    Memory.writeBytes [(3, 0x55)] 3 [0x00] = [] ∧ Memory.writeBytes [(3, 0x55)] 2 [0x11] = [(2, 0x11), (3, 0x55)] := by
  decide

/-! ### Witnesses: a state and operands that meet the hypotheses of each statement -/

section
variable (x : List Byte)

/-- `s` with `p` as the payload at the port. -/
def holding (p : List Byte) (s : State) : State := { s with payload := p }

theorem witness_EncodeOfDecodeIsTheWord : decode 0x13924FFF#32 = .ok (.lrol ⟨4, 4⟩ ⟨4, 4⟩ 4095) := by decide

/-- A row that matches, for the first and second clause, and a word no row matches, for the third. -/
theorem witness_DecodeFollowsTheOpcodeTable :
    (∃ r ∈ opcodeTable, 0x13FFFFFF#32 &&& r.mask = r.pattern) ∧
    (∀ r ∈ opcodeTable, 0x12FE0000#32 &&& r.mask ≠ r.pattern) := by decide

/-- Every form, the coordinate fields and the amount at their bounds. -/
theorem witness_OperandsComeFromTheirFields :
    decode 0x10FFF000#32 = .ok (.lxor ⟨7, 7⟩ ⟨7, 7⟩) ∧ decode 0x11000000#32 = .ok (.land ⟨0, 0⟩ ⟨0, 0⟩) ∧
    decode 0x13FFFFFF#32 = .ok (.lrol ⟨7, 7⟩ ⟨7, 7⟩ 4095) ∧ decode 0x13000000#32 = .ok (.lrol ⟨0, 0⟩ ⟨0, 0⟩ 0) ∧
    decode 0x12FC0000#32 = .ok (.lnot ⟨7, 7⟩) ∧ decode 0x14E00000#32 = .ok (.ldl ⟨7, 0⟩) ∧
    decode 0x151C0000#32 = .ok (.stl ⟨0, 7⟩) := by decide

/-- One word for each of the four clauses, the highest must-be-zero bit of the format alone. -/
theorem witness_IllegalWordsFault :
    pat.ERR = false ∧ (sending 0x16000000 x pat).pending = [.command 0x16000000 x] ∧
    (0x16000000#32).toNat / 2 ^ 24 ∉ [0x10, 0x11, 0x12, 0x13, 0x14, 0x15, 0x20, 0x21, 0x22, 0x23, 0x24, 0x25, 0x26,
        0x30, 0x31, 0x32, 0x33, 0x34] ∧
    ((0x34800000#32).toNat / 2 ^ 24 = 0x34 ∧ (0x34800000#32).toNat % 2 ^ 24 ≠ 0) ∧
    ((0x15020000#32).toNat / 2 ^ 24 = 0x15 ∧ (0x15020000#32).toNat % 2 ^ 18 ≠ 0) ∧
    ((0x11000800#32).toNat / 2 ^ 24 = 0x11 ∧ (0x11000800#32).toNat % 2 ^ 12 ≠ 0) :=
  ⟨rfl, rfl, by decide, by decide, by decide, by decide⟩

theorem witness_StepRunsTheDecodedCommand :
    (sending 0x26000000 [] pat).pending = [.command 0x26000000 []] ∧ decode 0x26000000#32 = .ok .rcinit ∧
    exec .rcinit { pat with pending := [], payload := [], output := [] } = .next pat := ⟨rfl, by decide, rfl⟩

/-- One transaction for each clause, in order; coordinates 5, payload lengths one off and exact. -/
theorem witness_TransactionsAreExaminedInOrder :
    (sending 0x00000000 x pat).pending = [.command 0x00000000 x] ∧ faulted.ERR = true ∧ pat.ERR = false ∧
    decode 0x16000000#32 = .error .unassignedOpcode ∧
    (decode 0x14A00000#32 = .ok (.ldl ⟨5, 0⟩) ∧ Instr.wf (.ldl ⟨5, 0⟩) = false) ∧
    (decode 0x14900000#32 = .ok (.ldl ⟨4, 4⟩) ∧ Instr.wf (.ldl ⟨4, 4⟩) = true ∧
      (patBytes.take 7).length ≠ payloadBytes (.ldl ⟨4, 4⟩) ∧
      (patBytes.take 9).length ≠ payloadBytes (.ldl ⟨4, 4⟩) ∧
      (patBytes.take 8).length = payloadBytes (.ldl ⟨4, 4⟩)) :=
  ⟨rfl, rfl, rfl, by decide, by decide, by decide⟩

theorem witness_EveryCommandIsRefusedWhileErr :
    faulted.ERR = true ∧ (sending 0x34000000 x faulted).pending = [.command 0x34000000 x] ∧
    step { faulted with pending := [.reset] } = .next State.reset ∧ State.reset.ERR = false := ⟨rfl, rfl, rfl, rfl⟩

/-- Each coordinate in turn at 5, the first value above 4. -/
theorem witness_CoordinatesAboveFourFault :
    pat.ERR = false ∧ 4 < (LaneRef.mk 5 0).x.toNat ∧ 4 < (LaneRef.mk 0 5).y.toNat ∧
    ¬ 4 < (LaneRef.mk 4 4).x.toNat := by decide

/-- One payload too short and one too long for each command that takes one, and one byte for a command that takes
none. -/
theorem witness_WrongPayloadLengthsFault :
    pat.ERR = false ∧ Instr.wf (.ldl ⟨4, 4⟩) = true ∧ Instr.wf .absorb = true ∧ Instr.wf .lds = true ∧
    Instr.wf .theta = true ∧
    (holding (patBytes.take 7) pat).payload.length = 7 ∧ (holding (patBytes.take 9) pat).payload.length = 9 ∧
    (holding (patBytes.take 135) pat).payload.length = 135 ∧ (holding (patBytes.take 137) pat).payload.length = 137 ∧
    (holding (patBytes.take 199) pat).payload.length = 199 ∧
    (holding (0x00 :: patBytes) pat).payload.length = 201 ∧ (holding [0x00] pat).payload.length = 1 := by
  decide +kernel

theorem witness_FaultsHaveNoOtherEffect : pat.ERR = false ∧
    step (sending 0x16000000 [] pat) =
      .next { pat with ERR := true, CAUSE := .illegalCommand, answers := [.output []] } := ⟨rfl, rfl⟩

theorem witness_OnlyResetLeavesAFault : faulted.ERR = true ∧
    (∀ rest, (sending 0x30000000 [] faulted).pending ≠ .reset :: rest) ∧
    step (sending 0x30000000 [] faulted) = .next { faulted with answers := [.output []] } :=
  ⟨rfl, fun _ h => HostEvent.noConfusion (List.cons.inj h).1, rfl⟩

theorem witness_StatusReadReturnsTheStatusWord :
    ({ faulted with pending := [.readStatus] } : State).pending = .readStatus :: [] := rfl

theorem witness_HostResetRestoresTheResetState :
    ({ faulted with pending := [.reset, .readStatus] } : State).pending = .reset :: [.readStatus] := rfl

theorem witness_IdleStepKeepsAllState : pat.pending = [] := rfl

theorem witness_StepTakesOneHostEvent :
    step { pat with pending := [.readStatus, .reset] } =
      .next { pat with pending := [.reset], answers := [.status 0x100] } := rfl

theorem witness_StepKeepsTheInvariant : Inv pat ∧ Inv faulted ∧
    step (sending 0x26000000 [] pat) = .next { pat with answers := [.output []] } :=
  ⟨by decide +kernel, by decide +kernel, rfl⟩

theorem witness_CommandsWriteOnlyTheirFootprint :
    (∃ t, exec (.ldl ⟨4, 4⟩) (holding (patBytes.take 8) pat) = .next t) ∧
    exec .rcinit faulted = .next faulted ∧
    exec (.stl ⟨5, 0⟩) pat = .next { pat with ERR := true, CAUSE := .laneRange } :=
  ⟨⟨_, execLdl_ready (by decide +kernel)⟩, rfl, rfl⟩

theorem witness_OnlySixCommandsWriteR :
    Instr.init ∉ [Instr.iota, .round, .permute, .absorb, .squeeze, .rcinit] ∧
    ∃ t, exec .init pat = .next t := ⟨by decide, _, execInit_ready (by decide +kernel)⟩

theorem witness_RotateMovesEachBit : (0 : Nat) < 64 ∧ (63 : Nat) < 64 := by decide

theorem witness_LaneByteConversionRoundTrips : (patBytes.take 8).length = 8 ∧ (7 : Nat) < 8 := by decide +kernel

theorem witness_PartialXorChangesAPrefix :
    136 ≤ patBytes.length ∧ 136 ≤ (pad []).length ∧ 199 < patBytes.length := by decide +kernel

theorem witness_LxorResult : Ready (.lxor ⟨4, 4⟩ ⟨0, 4⟩) pat ∧ Ready (.lxor ⟨0, 0⟩ ⟨0, 0⟩) pat := by decide +kernel
theorem witness_LandResult : Ready (.land ⟨4, 4⟩ ⟨0, 4⟩) pat ∧ Ready (.land ⟨0, 0⟩ ⟨0, 0⟩) pat := by decide +kernel
theorem witness_LnotResult : Ready (.lnot ⟨4, 4⟩) pat ∧ Ready (.lnot ⟨0, 0⟩) pat := by decide +kernel
theorem witness_LrolResult : Ready (.lrol ⟨4, 4⟩ ⟨0, 4⟩ 4095) pat ∧ Ready (.lrol ⟨0, 0⟩ ⟨0, 0⟩ 0) pat := by
  decide +kernel
theorem witness_LdlResult : Ready (.ldl ⟨4, 4⟩) (holding (patBytes.take 8) pat) := by decide +kernel
theorem witness_StlResult : Ready (.stl ⟨4, 4⟩) pat ∧ Ready (.stl ⟨0, 0⟩) pat := by decide +kernel

theorem witness_SameLaneAsSourceAndDestination :
    pat.ERR = false ∧ LaneRef.wf ⟨4, 4⟩ = true ∧ LaneRef.wf ⟨0, 0⟩ = true ∧ pat.payload = [] := by decide

theorem witness_PseudoInstructionsCopyAndClear :
    pat.ERR = false ∧ LaneRef.wf ⟨4, 0⟩ = true ∧ LaneRef.wf ⟨0, 4⟩ = true ∧ pat.payload = [] := by decide

theorem witness_FlattenAndUnflattenAreInverse : patBytes.length = 200 := by decide +kernel

/-- THETA is ready, and the parities of a state are a `P` as its statement asks. -/
theorem witness_ThetaResult : Ready .theta pat ∧
    ∃ P : Nat → Lane, ∀ y, y < 5 → P y = laneOf pat (laneIndex y 0) ^^^ laneOf pat (laneIndex y 1) ^^^
      laneOf pat (laneIndex y 2) ^^^ laneOf pat (laneIndex y 3) ^^^ laneOf pat (laneIndex y 4) :=
  ⟨by decide +kernel, _, fun _ _ => rfl⟩

theorem witness_RhopiFollowsItsTable : Ready .rhopi pat ∧ ⟨1, 1, 1, 0, 44⟩ ∈ rhopiTable := by decide +kernel
theorem witness_ChiResult : Ready .chi pat := by decide +kernel
theorem witness_IotaResult : Ready .iota pat ∧ (63 : Nat) < 64 := by decide +kernel
theorem witness_RcinitResult : Ready .rcinit pat := by decide +kernel
theorem witness_LfsrIsOneCycleOf255 : (0xFF : Byte) ≠ 0x00 ∧ 0 < 1 ∧ 254 < 255 := by decide
theorem witness_RoundConstantsFollowTheirTable :
    roundConstantTable[0]? = some ⟨0x01, 0x0000000000000001, 0x80⟩ ∧
    roundConstantTable[23]? = some ⟨0x44, 0x8000000080008008, 0x8E⟩ := by decide
theorem witness_RoundIsItsFourSteps : Ready .round pat := by decide +kernel
theorem witness_PermuteIsRcinitAndTwentyFourRounds : Ready .permute pat := by decide +kernel

/-- Two states with the same bytes and different `R`. -/
theorem witness_PermuteDependsOnTheBytesAlone :
    Ready .permute pat ∧ Ready .permute { pat with R := 0x8E } ∧ pat.R ≠ 0x8E ∧
    ∀ a, a < 200 → Memory.read pat.S a = Memory.read ({ pat with R := 0x8E } : State).S a :=
  ⟨by decide +kernel, by decide +kernel, by decide, fun _ _ => rfl⟩

theorem witness_LoadPermuteStoreIsPermute : pat.ERR = false ∧ patBytes.length = 200 := by decide +kernel
theorem witness_InitResult : Ready .init pat := by decide +kernel
theorem witness_LdsResult : Ready .lds (holding patBytes State.reset) := by decide +kernel
theorem witness_StsResult : Ready .sts pat := by decide +kernel

/-- ABSORB of the padded empty message from reset, and the state whose first 136 bytes are that block. -/
theorem witness_AbsorbXorsTheBlockAndPermutes :
    Ready .absorb (holding (pad []) State.reset) ∧
    Ready .permute { State.reset with S := [(0, 0x06), (135, 0x80)] } ∧
    (∀ a, a < 136 → Memory.read [(0, 0x06), (135, 0x80)] a =
      Memory.read State.reset.S a ^^^ (pad []).getD a 0#8) ∧
    ∀ a, 136 ≤ a → a < 200 → Memory.read [(0, 0x06), (135, 0x80)] a = Memory.read State.reset.S a := by
  decide +kernel

theorem witness_SqueezeEmitsTheRateAndPermutes : Ready .squeeze pat := by decide +kernel

/-- Two states that differ in byte 136, the first byte of the capacity. -/
theorem witness_SqueezeOutputHidesTheCapacity :
    Ready .squeeze State.reset ∧ Ready .squeeze { State.reset with S := [(136, 0x01)] } ∧
    (∀ a, a < 136 → Memory.read State.reset.S a = Memory.read [(136, 0x01)] a) ∧
    Memory.read State.reset.S 136 ≠ Memory.read [(136, 0x01)] 136 := by decide +kernel

/-- Messages of the lengths where the padding changes, and a state with stale `S` and `R`. -/
theorem witness_DigestProtocolComputesTheDigest :
    ({ pat with R := 0x8E } : State).ERR = false ∧
    (blocks (pad [])).length = 1 ∧ (blocks (pad (List.replicate 135 0x61))).length = 1 ∧
    (blocks (pad (List.replicate 136 0x61))).length = 2 := by decide +kernel

end
end Sys2Proof.Tests
end

section
/-! PROOFS of family 10_state.md, first the facts they share: lanes and bytes are inverse views (R105, R117), equal
pieces of a list make it up, the frame of `R` (R25), and what keeps the invariant. -/
namespace Sys2Proof.Machine

/-! ### Lanes and bytes (R105) -/

/-- The byte sum of R105 is Mathlib's `Nat.ofDigits` to the base 256. -/
theorem byteToLong_eq_ofDigits (b : List Byte) :
    byteToLong b = BitVec.ofNat 64 (Nat.ofDigits 256 (b.map BitVec.toNat)) := by
  simp [byteToLong, Nat.ofDigits_eq_foldr, List.foldr_map]

theorem lt_256_of_mem_map_toNat (b : List Byte) : ∀ x ∈ b.map BitVec.toNat, x < 256 := by
  simpa using fun v _ => v.isLt

theorem ofDigits_toNat_lt {b : List Byte} (h : b.length = 8) :
    Nat.ofDigits 256 (b.map BitVec.toNat) < 2 ^ 64 := by
  simpa [h] using Nat.ofDigits_lt_base_pow_length (by decide) (lt_256_of_mem_map_toNat b)

/-- The `n` lowest digits of `v` make up `v` modulo `b ^ n`. -/
theorem ofDigits_lowest_digits (b v n : Nat) :
    Nat.ofDigits b ((List.range n).map fun i => v / b ^ i % b) = v % b ^ n := by
  induction n with
  | zero => simp [Nat.mod_one]
  | succ n ih => simp [List.range_succ, Nat.ofDigits_append, ih, Nat.mod_pow_succ]

theorem toNat_longToByte (v : Lane) :
    (longToByte v).map BitVec.toNat = (List.range 8).map fun i => v.toNat / 256 ^ i % 256 := by
  simp [longToByte, Nat.shiftRight_eq_div_pow, Nat.pow_mul]

/-- R117: the bytes of a lane give the lane back. -/
@[simp] theorem byteToLong_longToByte (v : Lane) : byteToLong (longToByte v) = v := by
  rw [byteToLong_eq_ofDigits, toNat_longToByte, ofDigits_lowest_digits]
  exact BitVec.eq_of_toNat_eq (by simpa using v.isLt)

/-- Eight bytes are determined by their lane. -/
theorem byteToLong_inj {b c : List Byte} (hb : b.length = 8) (hc : c.length = 8)
    (h : byteToLong b = byteToLong c) : b = c := by
  rw [byteToLong_eq_ofDigits, byteToLong_eq_ofDigits] at h
  have hsum := congrArg BitVec.toNat h
  rw [BitVec.toNat_ofNat, BitVec.toNat_ofNat, Nat.mod_eq_of_lt (ofDigits_toNat_lt hb),
    Nat.mod_eq_of_lt (ofDigits_toNat_lt hc)] at hsum
  have hdigits := Nat.ofDigits_inj_of_len_eq (by decide) (by simp [hb, hc])
    (lt_256_of_mem_map_toNat b) (lt_256_of_mem_map_toNat c) hsum
  exact List.map_injective_iff.2 BitVec.toNat_injective hdigits

/-- R117: the lane of eight bytes gives the bytes back. -/
theorem longToByte_byteToLong {b : List Byte} (h : b.length = 8) : longToByte (byteToLong b) = b :=
  byteToLong_inj (length_longToByte _) h (byteToLong_longToByte _)

/-! ### Pieces of one length -/

section
variable {α β : Type}

/-- The first `n` pieces of `k` elements make up the first `k * n` elements. -/
theorem flatMap_range_take_drop (b : List β) (k n : Nat) :
    ((List.range n).flatMap fun l => (b.drop (k * l)).take k) = b.take (k * n) := by
  induction n with
  | zero => simp
  | succ n ih => simp [List.range_succ, ih, Nat.mul_succ, List.take_add]

/-- The piece at place `l` of a sequence made up of pieces of `k` elements. -/
theorem take_drop_flatMap {f : α → List β} {k : Nat} (hf : ∀ a, (f a).length = k) {L : List α} {l : Nat}
    (h : l < L.length) : ((L.flatMap f).drop (k * l)).take k = f L[l] := by
  induction L generalizing l with
  | nil => simp at h
  | cons a L ih =>
    cases l with
    | zero => simp [← hf a]
    | succ l =>
      have hl : l < L.length := by simpa using h
      have hk : k * (l + 1) = (f a).length + k * l := by rw [hf, Nat.mul_succ, Nat.add_comm]
      rw [hk, List.flatMap_cons, List.drop_length_add_append, ih hl, List.getElem_cons_succ]

end

/-! ### The view of `S` as lanes (R23) -/

/-- Lane `l` of an array stands at bytes `8 * l` to `8 * l + 7` of its flattening (R21). -/
theorem take_drop_flatten (A : Cube) {l : Nat} (h : l < 25) :
    ((flatten A).drop (8 * l)).take 8 = longToByte (laneAt A l) := by
  rw [flatten, take_drop_flatMap length_longToByte (by simpa using h), laneAt_eq_getElem A h]
  simp

@[simp] theorem unflatten_flatten (A : Cube) : unflatten (flatten A) = A :=
  cube_ext fun l hl => by
    rw [unflatten, laneAt_cubeOf _ hl, take_drop_flatten A hl, byteToLong_longToByte]

theorem flatten_unflatten {b : List Byte} (h : b.length = 200) : flatten (unflatten b) = b := by
  have hpieces : ∀ l ∈ List.range 25,
      longToByte (byteToLong ((b.drop (8 * l)).take 8)) = (b.drop (8 * l)).take 8 := fun l hl =>
    longToByte_byteToLong (by
      have := List.mem_range.1 hl
      rw [List.length_take, List.length_drop, h]
      omega)
  calc flatten (unflatten b)
      = (List.range 25).flatMap fun l => longToByte (byteToLong ((b.drop (8 * l)).take 8)) := by
        simp [flatten, unflatten, cubeOf, List.flatMap_map]
    _ = (List.range 25).flatMap fun l => (b.drop (8 * l)).take 8 := List.flatMap_congr hpieces
    _ = b.take (8 * 25) := flatMap_range_take_drop b 8 25
    _ = b := List.take_of_length_le (by omega)

/-! ### The frame of `R` (R25, R161) -/

/-- A command that is none of R161's six executes without writing `R`. -/
theorem exec_ready_keeps_R {i : Instr} {s : State} (h : Ready i s)
    (hi : i ∉ [Instr.iota, .round, .permute, .absorb, .squeeze, .rcinit]) :
    ∃ m o, exec i s = .next (withEffect s m s.R o) := by
  cases i with
  | lxor d t => exact ⟨_, _, execLxor_ready h⟩
  | land d t => exact ⟨_, _, execLand_ready h⟩
  | lnot d => exact ⟨_, _, execLnot_ready h⟩
  | lrol d t n => exact ⟨_, _, execLrol_ready h⟩
  | ldl d => exact ⟨_, _, execLdl_ready h⟩
  | stl d => exact ⟨_, _, execStl_ready h⟩
  | theta => exact ⟨_, _, execTheta_ready h⟩
  | rhopi => exact ⟨_, _, execRhopi_ready h⟩
  | chi => exact ⟨_, _, execChi_ready h⟩
  | init => exact ⟨_, _, execInit_ready h⟩
  | lds => exact ⟨_, _, execLds_ready h⟩
  | sts => exact ⟨_, _, execSts_ready h⟩
  | iota | round | permute | rcinit | absorb | squeeze => simp at hi

/-! ### The invariant -/

theorem inv_reset : Inv State.reset := ⟨Memory.wf_nil, by decide, by decide⟩

section
variable {s : State}

theorem inv_refuseCommand (h : Inv s) : Inv (refuseCommand s) := h

/-- A fault sets `ERR` and a cause that is not 0 together (R224). -/
theorem inv_takeFault {c : Cause} (h : Inv s) (hc : c ≠ .noFault) : Inv (takeFault c s) := by
  obtain ⟨hS, hR, -⟩ := h
  exact ⟨hS, hR, by simp [hc]⟩

theorem inv_rejectWord (h : Inv s) : Inv (rejectWord s) := by
  rcases rejectWord_cases s with ⟨-, he⟩ | ⟨-, he⟩
  · exact he ▸ inv_refuseCommand h
  · exact he ▸ inv_takeFault h (by decide)

theorem inv_present (p : List Byte) (h : Inv s) : Inv (present p s) := h

theorem inv_answerOutput (h : Inv s) : Inv (answerOutput s) := h

theorem inv_readStatus (h : Inv s) : Inv (readStatus s) := h

theorem inv_hostReset (s : State) : Inv (hostReset s) := inv_reset

/-- The invariant does not speak of the host's lists. -/
theorem inv_withPending (rest : List HostEvent) (h : Inv s) : Inv { s with pending := rest } := h

/-- Every command answers a next state that meets the invariant, whether it executes, faults or is refused. -/
theorem exec_keeps_inv (i : Instr) (h : Inv s) : ∃ t, exec i s = .next t ∧ Inv t := by
  rcases exec_cases i s with ⟨-, he⟩ | ⟨-, c, hc, he⟩ | ⟨-, m, r, o, he, hm, hr, -⟩
  · exact ⟨_, he, inv_refuseCommand h⟩
  · exact ⟨_, he, inv_takeFault h hc⟩
  · obtain ⟨hS, hR, hE⟩ := h
    exact ⟨_, he, hm hS, hr hR, hE⟩

/-- Every step answers a next state that meets the invariant. -/
theorem step_keeps_inv (h : Inv s) : ∃ t, step s = .next t ∧ Inv t := by
  rcases step_cases s with ⟨-, he⟩ | ⟨rest, -, he⟩ | ⟨rest, -, he⟩ | ⟨w, p, rest, e, -, -, he⟩ |
    ⟨w, p, rest, i, -, -, he⟩
  · exact ⟨_, he, h⟩
  · exact ⟨_, he, inv_readStatus (inv_withPending rest h)⟩
  · exact ⟨_, he, inv_hostReset _⟩
  · exact ⟨_, he, inv_answerOutput (inv_rejectWord (inv_present p (inv_withPending rest h)))⟩
  · obtain ⟨t, ht, hInv⟩ := exec_keeps_inv i (inv_present p (inv_withPending rest h))
    exact ⟨answerOutput t, by rw [he, ht]; rfl, inv_answerOutput hInv⟩

end

/-! ### The value of `STATUS` (R29) -/

/-- A field of a word by its place in the word's number. -/
theorem extractLsb'_eq_of_toNat {w n k : Nat} {x : BitVec w} {v : BitVec n}
    (h : x.toNat / 2 ^ k % 2 ^ n = v.toNat) : x.extractLsb' k n = v :=
  BitVec.eq_of_toNat_eq (by rw [BitVec.extractLsb'_toNat, Nat.shiftRight_eq_div_pow, h])

/-- The three fields do not overlap, so `STATUS` is their sum, each at its place. -/
theorem toNat_statusWord (s : State) :
    (statusWord s).toNat = s.ERR.toNat + 2 * (causeCode s.CAUSE).toNat + 256 * s.R.toNat := by
  have hE := s.ERR.toNat_lt
  have hC := (causeCode s.CAUSE).isLt
  have hR := s.R.isLt
  have hlow : s.ERR.toNat ||| (causeCode s.CAUSE).toNat <<< 1 = s.ERR.toNat + 2 * (causeCode s.CAUSE).toNat := by
    rw [Nat.or_comm, ← Nat.shiftLeft_add_eq_or_of_lt hE, Nat.shiftLeft_eq]
    omega
  have hall : (s.ERR.toNat + 2 * (causeCode s.CAUSE).toNat) ||| s.R.toNat <<< 8 =
      s.ERR.toNat + 2 * (causeCode s.CAUSE).toNat + 256 * s.R.toNat := by
    rw [Nat.or_comm, ← Nat.shiftLeft_add_eq_or_of_lt (by omega), Nat.shiftLeft_eq]
    omega
  have hC1 : (causeCode s.CAUSE).toNat <<< 1 < 2 ^ 32 := by rw [Nat.shiftLeft_eq]; omega
  have hR8 : s.R.toNat <<< 8 < 2 ^ 32 := by rw [Nat.shiftLeft_eq]; omega
  rw [statusWord, BitVec.toNat_or, BitVec.toNat_or, BitVec.toNat_shiftLeft, BitVec.toNat_shiftLeft,
    BitVec.toNat_setWidth_of_le (by decide), BitVec.toNat_setWidth_of_le (by decide),
    BitVec.toNat_setWidth_of_le (by decide), BitVec.toNat_ofBool, Nat.mod_eq_of_lt hC1, Nat.mod_eq_of_lt hR8,
    hlow, hall]

end Sys2Proof.Machine

/-! ### The obligations -/

open Sys2Proof Sys2Proof.Machine

/-- Settles O22: the invariant is kept by each of a step's five cases. -/
theorem stepKeepsTheInvariant : Obligations.StepKeepsTheInvariant := by
  intro s t hs ht
  obtain ⟨u, hu, hInv⟩ := step_keeps_inv hs
  cases hu.symm.trans ht
  exact hInv

/-- Settles O24: a refused or faulted command leaves `R` alone, and an executed one writes it only if it is one of
the six. -/
theorem onlySixCommandsWriteR : Obligations.OnlySixCommandsWriteR := by
  intro i s t ht hi
  rcases exec_cases i s with ⟨-, he⟩ | ⟨-, c, -, he⟩ | ⟨hready, -⟩
  · cases he.symm.trans ht
    exact refuseCommand_R s
  · cases he.symm.trans ht
    exact takeFault_R s c
  · obtain ⟨m, o, he⟩ := exec_ready_keeps_R hready hi
    cases he.symm.trans ht
    exact withEffect_R s m s.R o

/-- Settles O38: lane by lane one way, piece by piece of eight bytes the other. -/
theorem flattenAndUnflattenAreInverse : Obligations.FlattenAndUnflattenAreInverse :=
  ⟨fun A => ⟨length_flatten A, unflatten_flatten A⟩, fun _ hb => flatten_unflatten hb⟩

/-- Settles O16: each field is read off the sum that `STATUS` is. -/
theorem statusWordFields : Obligations.StatusWordFields := by
  refine ⟨fun s => ?_, rfl, rfl, rfl, rfl⟩
  have hv := toNat_statusWord s
  have hE := s.ERR.toNat_lt
  have hC := (causeCode s.CAUSE).isLt
  have hR := s.R.isLt
  refine ⟨?_, extractLsb'_eq_of_toNat ?_, extractLsb'_eq_of_toNat ?_, extractLsb'_eq_of_toNat ?_,
    extractLsb'_eq_of_toNat ?_⟩
  · rw [BitVec.getLsbD, hv, Nat.testBit_zero]
    cases s.ERR <;> simp <;> omega
  · omega
  · rw [BitVec.toNat_zero]
    omega
  · omega
  · rw [BitVec.toNat_zero]
    omega

/-- Settles O18: `S` lists no byte after reset, so each reads 0x00. -/
theorem resetValues : Obligations.ResetValues :=
  ⟨fun a _ => Memory.read_nil a, rfl, rfl, rfl, by decide⟩

/-- Settles O21: no cell is listed, `R` is the seed 0x01, and neither `ERR` nor `CAUSE` is set. -/
theorem invariantHoldsAtReset : Obligations.InvariantHoldsAtReset := inv_reset
end

section
/-! PROOFS of family 20_memory.md, first the facts they share: what a write of whole lanes leaves in `S` (R21), that
rho-and-pi keeps lane (0,0) (R133), and the bytes an executed command writes (R46). -/
namespace Sys2Proof.Machine

/-! ### Whole lanes in `S` (R21) -/

namespace Memory

/-- Where a sequence of bytes reads the same from two memories, each of its bytes does. -/
theorem read_eq_of_readBytes_eq {m m' : List Host.Cell} {addr n a : Nat}
    (h : readBytes m addr n = readBytes m' addr n) (hlo : addr ≤ a) (hhi : a < addr + n) :
    read m a = read m' a := by
  obtain ⟨i, rfl⟩ := Nat.exists_eq_add_of_le hlo
  have hi : i < n := by omega
  have hbyte : ∀ m, (readBytes m addr n)[i]? = some (read m (addr + i)) := fun m => by
    simp [readBytes, hi]
  exact Option.some.inj (by rw [← hbyte m, ← hbyte m', h])

end Memory

/-- The bytes of a lane as `S` holds it. -/
theorem longToByte_laneOf (s : State) (l : Nat) : longToByte (laneOf s l) = Memory.readBytes s.S (8 * l) 8 :=
  longToByte_byteToLong (Memory.length_readBytes _ _ _)

/-- Lane `l` read back after all 25 lanes are written. -/
theorem readBytes_writeBytes_flatten (m : List Host.Cell) (A : Cube) {l : Nat} (h : l < 25) :
    Memory.readBytes (Memory.writeBytes m 0 (flatten A)) (8 * l) 8 = longToByte (laneAt A l) := by
  have hpart := Memory.readBytes_writeBytes_part m 0 (flatten A) (8 * l) 8 (by rw [length_flatten]; omega)
  rwa [Nat.zero_add, take_drop_flatten A h] at hpart

/-- A lane that is written back with the value it had keeps its bytes. -/
theorem readBytes_writeBytes_flatten_of_laneAt_eq {s : State} {A : Cube} {l : Nat} (hl : l < 25)
    (h : laneAt A l = laneOf s l) :
    Memory.readBytes (Memory.writeBytes s.S 0 (flatten A)) (8 * l) 8 = Memory.readBytes s.S (8 * l) 8 := by
  rw [readBytes_writeBytes_flatten s.S A hl, h, longToByte_laneOf]

/-! ### Rho-and-pi keeps lane (0,0) (R133) -/

/-- The chain stands at coordinates of the array other than (0,0). -/
structure Chain.AwayFromOrigin (c : Chain) : Prop where
  x_lt : c.x < 5
  y_lt : c.y < 5
  ne_origin : laneIndex c.x c.y ≠ 0

/-- The chain never comes to (0,0): modulo 5, `y = 0` and `2x + 3y = 0` only where `x = 0` as well. -/
theorem chainStep_awayFromOrigin {c : Chain} (h : c.AwayFromOrigin) (t : Nat) :
    (chainStep c t).AwayFromOrigin := by
  obtain ⟨hx, hy, hne⟩ := h
  refine ⟨hy, Nat.mod_lt _ (by decide), ?_⟩
  simp only [chainStep, laneIndex] at hne ⊢
  omega

/-- A chain step overwrites the lane it moves on to, which is not lane (0,0). -/
theorem chainStep_laneAt_zero {c : Chain} (h : c.AwayFromOrigin) (t : Nat) :
    laneAt (chainStep c t).A 0 = laneAt c.A 0 :=
  (laneAt_setIfInBounds _ _ (by decide)).trans (if_neg (chainStep_awayFromOrigin h t).ne_origin)

theorem foldl_chainStep_laneAt_zero (ts : List Nat) {c : Chain} (h : c.AwayFromOrigin) :
    laneAt (ts.foldl chainStep c).A 0 = laneAt c.A 0 := by
  induction ts generalizing c with
  | nil => rfl
  | cons t ts ih => rw [List.foldl_cons, ih (chainStep_awayFromOrigin h t), chainStep_laneAt_zero h]

/-- The chain starts at (1,0), so rho-and-pi keeps lane (0,0). -/
@[simp] theorem laneAt_rhopi_zero (A : Cube) : laneAt (rhopi A) 0 = laneAt A 0 :=
  foldl_chainStep_laneAt_zero _
    ⟨(by decide : 1 < 5), (by decide : 0 < 5), (by decide : laneIndex 1 0 ≠ 0)⟩

/-! ### The bytes a command writes (R46) -/

section
variable {s t : State} {addr n : Nat}

theorem sameOutside_of_S_eq (h : t.S = s.S) : SameOutside s t addr n := fun _ _ => by rw [h]

/-- One write of `n` bytes is all that happens to `S`. -/
theorem sameOutside_writeBytes {v : List Byte} (r : Byte) (o : List Byte) (hv : v.length = n) :
    SameOutside s (withEffect s (Memory.writeBytes s.S addr v) r o) addr n := by
  subst hv
  exact fun _ ha => Memory.read_writeBytes_outside s.S ha

/-- RHOPI writes all of `S` back, lane (0,0) with the value it had. -/
theorem sameOutside_rhopi (r : Byte) (o : List Byte) :
    SameOutside s (withEffect s
      (Memory.writeBytes s.S 0 (flatten (rhopi (unflatten (Memory.readBytes s.S 0 200))))) r o) 8 192 := by
  have hkept : laneAt (rhopi (unflatten (Memory.readBytes s.S 0 200))) 0 = laneOf s 0 := by
    rw [laneAt_rhopi_zero, laneAt_unflatten s (by decide)]
  rintro a (hlow | hhigh)
  · have hbytes := readBytes_writeBytes_flatten_of_laneAt_eq (by decide) hkept
    exact Memory.read_eq_of_readBytes_eq hbytes (Nat.zero_le a) (by omega)
  · exact sameOutside_writeBytes r o (length_flatten _) a (.inr hhigh)

/-- An executed command writes only the bytes of its footprint: a lane, lane (0,0), all of `S`, or none. -/
theorem exec_ready_sameOutside {i : Instr} (h : Ready i s) :
    ∃ t, exec i s = .next t ∧ SameOutside s t (footprint i).1 (footprint i).2 := by
  cases i with
  | lxor d t => exact ⟨_, execLxor_ready h, sameOutside_writeBytes _ _ (length_longToByte _)⟩
  | land d t => exact ⟨_, execLand_ready h, sameOutside_writeBytes _ _ (length_longToByte _)⟩
  | lnot d => exact ⟨_, execLnot_ready h, sameOutside_writeBytes _ _ (length_longToByte _)⟩
  | lrol d t n => exact ⟨_, execLrol_ready h, sameOutside_writeBytes _ _ (length_longToByte _)⟩
  | ldl d => exact ⟨_, execLdl_ready h, sameOutside_writeBytes _ _ (length_longToByte _)⟩
  | stl d => exact ⟨_, execStl_ready h, sameOutside_of_S_eq rfl⟩
  | theta => exact ⟨_, execTheta_ready h, sameOutside_writeBytes _ _ (length_flatten _)⟩
  | rhopi => exact ⟨_, execRhopi_ready h, sameOutside_rhopi _ _⟩
  | chi => exact ⟨_, execChi_ready h, sameOutside_writeBytes _ _ (length_flatten _)⟩
  | iota => exact ⟨_, execIota_ready h, sameOutside_writeBytes _ _ (length_longToByte _)⟩
  | round => exact ⟨_, execRound_ready h, sameOutside_writeBytes _ _ (length_flatten _)⟩
  | permute => exact ⟨_, execPermute_ready h, sameOutside_writeBytes _ _ (length_flatten _)⟩
  | rcinit => exact ⟨_, execRcinit_ready h, sameOutside_of_S_eq rfl⟩
  | init => exact ⟨_, execInit_ready h, sameOutside_writeBytes _ _ List.length_replicate⟩
  | absorb => exact ⟨_, execAbsorb_ready h, sameOutside_writeBytes _ _ (length_flatten _)⟩
  | squeeze => exact ⟨_, execSqueeze_ready h, sameOutside_writeBytes _ _ (length_flatten _)⟩
  | lds =>
    have hp : s.payload.length = 200 := h.2.2
    exact ⟨_, execLds_ready h, sameOutside_writeBytes _ _ hp⟩
  | sts => exact ⟨_, execSts_ready h, sameOutside_of_S_eq rfl⟩

end

end Sys2Proof.Machine

/-! ### The obligation -/

open Sys2Proof Sys2Proof.Machine

/-- Settles O23: a refused or faulted command leaves `S` alone, and an executed one writes inside its footprint. -/
theorem commandsWriteOnlyTheirFootprint : Obligations.CommandsWriteOnlyTheirFootprint := by
  intro i s t ht
  rcases exec_cases i s with ⟨-, he⟩ | ⟨-, c, -, he⟩ | ⟨hready, -⟩
  · cases he.symm.trans ht
    exact sameOutside_of_S_eq (refuseCommand_S s)
  · cases he.symm.trans ht
    exact sameOutside_of_S_eq (takeFault_S s c)
  · obtain ⟨u, he, hout⟩ := exec_ready_sameOutside hready
    cases he.symm.trans ht
    exact hout
end

section
/-! PROOFS of family 30_encoding.md, first the facts they share: a word is its fields (R66), what each format asks of
a word (R67 to R70), the one word of a command (R77), the rows of the opcode table (R71), and what one step does with
the host's next event (R60). -/
namespace Sys2Proof

/-! ### A word is its fields (R66) -/

section
variable (op : BitVec 8) (d s : LaneRef) (n : BitVec 12) (w : Word)

@[simp] theorem opField_assemble : opField (assemble op d s n) = op := (Laws.assemble_fields op d s n).1

@[simp] theorem dstField_assemble : dstField (assemble op d s n) = d := (Laws.assemble_fields op d s n).2.1

@[simp] theorem srcField_assemble : srcField (assemble op d s n) = s := (Laws.assemble_fields op d s n).2.2.1

@[simp] theorem immField_assemble : immField (assemble op d s n) = n := (Laws.assemble_fields op d s n).2.2.2

theorem toNat_opField : (opField w).toNat = w.toNat / 2 ^ 24 := by
  have hw := w.isLt
  rw [opField, BitVec.extractLsb'_toNat, Nat.shiftRight_eq_div_pow]
  omega

theorem toNat_dstField_x : (dstField w).x.toNat = w.toNat / 2 ^ 21 % 8 := by
  rw [dstField, BitVec.extractLsb'_toNat, Nat.shiftRight_eq_div_pow]

theorem toNat_dstField_y : (dstField w).y.toNat = w.toNat / 2 ^ 18 % 8 := by
  rw [dstField, BitVec.extractLsb'_toNat, Nat.shiftRight_eq_div_pow]

theorem toNat_srcField_x : (srcField w).x.toNat = w.toNat / 2 ^ 15 % 8 := by
  rw [srcField, BitVec.extractLsb'_toNat, Nat.shiftRight_eq_div_pow]

theorem toNat_srcField_y : (srcField w).y.toNat = w.toNat / 2 ^ 12 % 8 := by
  rw [srcField, BitVec.extractLsb'_toNat, Nat.shiftRight_eq_div_pow]

theorem toNat_immField : (immField w).toNat = w.toNat % 2 ^ 12 := by
  rw [immField, BitVec.extractLsb'_toNat, Nat.shiftRight_zero]

/-- The fields do not overlap and leave no bit out, so a word is their sum, each at its place. -/
theorem toNat_eq_sum_of_fields : w.toNat = 2 ^ 24 * (opField w).toNat + 2 ^ 21 * (dstField w).x.toNat +
    2 ^ 18 * (dstField w).y.toNat + 2 ^ 15 * (srcField w).x.toNat + 2 ^ 12 * (srcField w).y.toNat +
    (immField w).toNat := by
  rw [toNat_opField, toNat_dstField_x, toNat_dstField_y, toNat_srcField_x, toNat_srcField_y, toNat_immField]
  omega

/-- Assembling the fields of a word gives the word back. -/
@[simp] theorem assemble_of_fields : assemble (opField w) (dstField w) (srcField w) (immField w) = w := by
  apply BitVec.eq_of_toNat_eq
  rw [toNat_eq_sum_of_fields (assemble _ _ _ _), toNat_eq_sum_of_fields w]
  simp only [opField_assemble, dstField_assemble, srcField_assemble, immField_assemble]

end

/-! ### The bits that must be zero (R67 to R70, R75) -/

theorem laneRef_eq_zero_iff (d : LaneRef) : d = .zero ↔ d.x.toNat = 0 ∧ d.y.toNat = 0 := by
  obtain ⟨x, y⟩ := d
  simp [LaneRef.zero, BitVec.toNat_eq]

theorem mod_two_pow_12_eq_zero_iff (w : Word) : w.toNat % 2 ^ 12 = 0 ↔ immField w = 0#12 := by
  rw [← toNat_immField, BitVec.toNat_eq, BitVec.toNat_zero]

theorem mod_two_pow_18_eq_zero_iff (w : Word) :
    w.toNat % 2 ^ 18 = 0 ↔ srcField w = .zero ∧ immField w = 0#12 := by
  rw [laneRef_eq_zero_iff, toNat_srcField_x, toNat_srcField_y, ← mod_two_pow_12_eq_zero_iff]
  omega

theorem mod_two_pow_24_eq_zero_iff (w : Word) :
    w.toNat % 2 ^ 24 = 0 ↔ dstField w = .zero ∧ srcField w = .zero ∧ immField w = 0#12 := by
  rw [laneRef_eq_zero_iff, toNat_dstField_x, toNat_dstField_y, ← mod_two_pow_18_eq_zero_iff]
  omega

/-- How many of the low bits the format of a command must have zero: formats N, L1, L2 and L2I (R67 to R70). -/
def zeroBits : Instr → Nat
  | .lxor _ _ | .land _ _ => 12
  | .lnot _ | .ldl _ | .stl _ => 18
  | .lrol _ _ _ => 0
  | .theta | .rhopi | .chi | .iota | .round | .permute | .rcinit | .init | .absorb | .squeeze | .lds | .sts => 24

/-- The command with its operands read from the fields of `w` instead. -/
def withFields (w : Word) : Instr → Instr
  | .lxor _ _ => .lxor (dstField w) (srcField w)
  | .land _ _ => .land (dstField w) (srcField w)
  | .lnot _ => .lnot (dstField w)
  | .lrol _ _ _ => .lrol (dstField w) (srcField w) (immField w)
  | .ldl _ => .ldl (dstField w)
  | .stl _ => .stl (dstField w)
  | i => i

section
variable (w : Word) (i : Instr)

@[simp] theorem mnemonic_withFields : mnemonic (withFields w i) = mnemonic i := by cases i <;> rfl

@[simp] theorem opField_encode : opField (encode i) = opcode i := by cases i <;> exact opField_assemble ..

@[simp] theorem withFields_encode : withFields (encode i) i = i := by cases i <;> simp [withFields, encode]

theorem encode_mod_zeroBits : (encode i).toNat % 2 ^ zeroBits i = 0 := by
  cases i with
  | lxor | land => exact (mod_two_pow_12_eq_zero_iff _).2 (by simp [encode])
  | lnot | ldl | stl => exact (mod_two_pow_18_eq_zero_iff _).2 (by simp [encode])
  | lrol => exact Nat.mod_one _
  | _ => exact (mod_two_pow_24_eq_zero_iff _).2 (by simp [encode])

end

/-- A word with the opcode of a command and zeros where its format says so is the command's word, with the word's own
fields as operands. -/
theorem encode_withFields {w : Word} {i : Instr} (hop : opField w = opcode i)
    (hzero : w.toNat % 2 ^ zeroBits i = 0) : encode (withFields w i) = w := by
  have hw := assemble_of_fields w
  cases i with
  | lxor | land =>
    rwa [hop, (mod_two_pow_12_eq_zero_iff w).1 hzero] at hw
  | lnot | ldl | stl =>
    obtain ⟨hs, hn⟩ := (mod_two_pow_18_eq_zero_iff w).1 hzero
    rwa [hop, hs, hn] at hw
  | lrol => rwa [hop] at hw
  | _ =>
    obtain ⟨hd, hs, hn⟩ := (mod_two_pow_24_eq_zero_iff w).1 hzero
    rwa [hop, hd, hs, hn] at hw

/-! ### The decoder (R77) -/

/-- The words of a command's opcode: accepted with the word's own fields when the format's zero bits are zero. -/
theorem decode_of_opField {w : Word} {i : Instr} (h : opField w = opcode i) :
    decode w = zeroBelow (zeroBits i) w (withFields w i) := by
  unfold decode
  rw [h]
  cases i with
  | lrol => exact (if_pos (Nat.mod_one _)).symm
  | _ => rfl

/-- The eighteen commands, with zeros as operands. -/
def commands : List Instr :=
  [.lxor .zero .zero, .land .zero .zero, .lnot .zero, .lrol .zero .zero 0#12, .ldl .zero, .stl .zero, .theta, .rhopi,
   .chi, .iota, .round, .permute, .rcinit, .init, .absorb, .squeeze, .lds, .sts]

/-- A word carries the opcode of a command, or it is rejected (R74). -/
theorem exists_opcode_or_decode_unassigned (w : Word) :
    (∃ i, opField w = opcode i) ∨ decode w = .error .unassignedOpcode := by
  fun_cases decode w
  case case19 => exact .inr rfl
  all_goals
    rename_i hop
    have hassigned : ∃ i ∈ commands, (opcode i).toNat = (opField w).toNat := by rw [hop]; decide
    obtain ⟨i, -, hi⟩ := hassigned
    exact .inl ⟨i, BitVec.eq_of_toNat_eq hi.symm⟩

/-- A word decodes to a command exactly when it is the one word of the command. -/
theorem decode_eq_ok_iff {w : Word} {i : Instr} : decode w = .ok i ↔ encode i = w := by
  constructor
  · intro h
    rcases exists_opcode_or_decode_unassigned w with ⟨j, hop⟩ | he
    · rw [decode_of_opField hop, zeroBelow] at h
      split at h
      next hzero =>
        cases h
        exact encode_withFields hop hzero
      next => cases h
    · cases he.symm.trans h
  · rintro rfl
    rw [decode_of_opField (opField_encode i), zeroBelow, if_pos (encode_mod_zeroBits i), withFields_encode]

/-! ### The rows of the opcode table (R71) -/

/-- The mask of a row: the `OP` field and the `k` low bits that must be zero. -/
def rowMask (k : Nat) : Word := BitVec.ofNat 32 (255 * 2 ^ 24 + (2 ^ k - 1))

/-- The row of a command as its opcode, its format and its lengths (R62) give it. -/
def rowOf (i : Instr) : TableRow :=
  { mnemonic := mnemonic i
    pattern := assemble (opcode i) .zero .zero 0#12
    mask := rowMask (zeroBits i)
    payload := Machine.payloadBytes i
    output := Machine.outputBytes i }

theorem toNat_and_rowMask (w : Word) {k : Nat} (hk : k ≤ 24) :
    (w &&& rowMask k).toNat = 2 ^ 24 * (opField w).toNat + w.toNat % 2 ^ k := by
  have hw := w.isLt
  have hpos := Nat.two_pow_pos k
  have hle : 2 ^ k ≤ 2 ^ 24 := Nat.pow_le_pow_right (by decide) hk
  have hm : (rowMask k).toNat = 255 * 2 ^ 24 + (2 ^ k - 1) := by
    rw [rowMask, BitVec.toNat_ofNat]
    omega
  have hdiv : (w &&& rowMask k).toNat / 2 ^ 24 = (opField w).toNat := by
    have hm24 : (rowMask k).toNat / 2 ^ 24 = 2 ^ 8 - 1 := by omega
    rw [BitVec.toNat_and, Nat.and_div_two_pow, hm24, Nat.and_two_pow_sub_one_eq_mod, toNat_opField]
    omega
  have hmod : (w &&& rowMask k).toNat % 2 ^ 24 = w.toNat % 2 ^ k := by
    have hm24 : (rowMask k).toNat % 2 ^ 24 = 2 ^ k - 1 := by omega
    rw [BitVec.toNat_and, Nat.and_mod_two_pow, hm24, Nat.and_two_pow_sub_one_eq_mod,
      Nat.mod_mod_of_dvd _ (Nat.pow_dvd_pow 2 hk)]
  rw [← hdiv, ← hmod, Nat.div_add_mod]

theorem zeroBits_le (i : Instr) : zeroBits i ≤ 24 := by cases i <;> simp [zeroBits]

/-- A word matches a command's row when it has the command's opcode and zeros where the format says so. -/
theorem and_mask_rowOf_eq_pattern_iff (w : Word) (i : Instr) :
    w &&& (rowOf i).mask = (rowOf i).pattern ↔ opField w = opcode i ∧ w.toNat % 2 ^ zeroBits i = 0 := by
  have hpattern : (assemble (opcode i) .zero .zero 0#12).toNat = 2 ^ 24 * (opcode i).toNat := by
    rw [toNat_eq_sum_of_fields]
    simp [LaneRef.zero]
  have hlow : w.toNat % 2 ^ zeroBits i < 2 ^ 24 :=
    (Nat.mod_lt _ (Nat.two_pow_pos _)).trans_le (Nat.pow_le_pow_right (by decide) (zeroBits_le i))
  rw [rowOf, BitVec.toNat_eq, toNat_and_rowMask w (zeroBits_le i), hpattern, BitVec.toNat_eq]
  omega

theorem opcodeTable_eq_map_rowOf : opcodeTable = commands.map rowOf := by decide

/-- A command's row does not depend on its operands. -/
@[simp] theorem rowOf_withFields (w : Word) (i : Instr) : rowOf (withFields w i) = rowOf i := by cases i <;> rfl

theorem withFields_zero_mem_commands (i : Instr) : withFields 0#32 i ∈ commands := by
  have hd : dstField 0#32 = .zero := by decide
  have hs : srcField 0#32 = .zero := by decide
  have hn : immField 0#32 = 0#12 := by decide
  cases i <;> simp [withFields, commands, hd, hs, hn]

theorem rowOf_mem_opcodeTable (i : Instr) : rowOf i ∈ opcodeTable := by
  rw [opcodeTable_eq_map_rowOf, ← rowOf_withFields 0#32]
  exact List.mem_map_of_mem (withFields_zero_mem_commands i)

theorem exists_eq_rowOf {r : TableRow} (h : r ∈ opcodeTable) : ∃ i, rowOf i = r := by
  rw [opcodeTable_eq_map_rowOf] at h
  obtain ⟨i, -, hi⟩ := List.mem_map.1 h
  exact ⟨i, hi⟩

/-- No two rows have one mnemonic. -/
theorem rowOf_eq_of_mnemonic_eq {i j : Instr} (h : mnemonic i = mnemonic j) : rowOf i = rowOf j :=
  List.inj_on_of_nodup_map (f := TableRow.mnemonic) (by decide) (rowOf_mem_opcodeTable i) (rowOf_mem_opcodeTable j) h

/-- No two rows have one opcode. -/
theorem rowOf_eq_of_opcode_eq {i j : Instr} (h : opcode i = opcode j) : rowOf i = rowOf j :=
  List.inj_on_of_nodup_map (f := TableRow.pattern) (by decide) (rowOf_mem_opcodeTable i) (rowOf_mem_opcodeTable j)
    (congrArg (assemble · .zero .zero 0#12) h)

/-! ### Which words select a row (R71, R76) -/

/-- A word selects the row of a command exactly when it decodes to a command of that row. -/
theorem selects_rowOf_iff (w : Word) (i : Instr) :
    w &&& (rowOf i).mask = (rowOf i).pattern ↔ ∃ j, decode w = .ok j ∧ mnemonic j = mnemonic i := by
  constructor
  · intro hsel
    obtain ⟨hop, hzero⟩ := (and_mask_rowOf_eq_pattern_iff w i).1 hsel
    exact ⟨withFields w i, decode_eq_ok_iff.2 (encode_withFields hop hzero), mnemonic_withFields w i⟩
  · rintro ⟨j, hj, hname⟩
    obtain rfl := decode_eq_ok_iff.1 hj
    rw [← rowOf_eq_of_mnemonic_eq hname]
    exact (and_mask_rowOf_eq_pattern_iff _ j).2 ⟨opField_encode j, encode_mod_zeroBits j⟩

/-- R76: a word selects at most one row. -/
theorem row_eq_of_selects {w : Word} {r r' : TableRow} (hr : r ∈ opcodeTable) (hr' : r' ∈ opcodeTable)
    (h : w &&& r.mask = r.pattern) (h' : w &&& r'.mask = r'.pattern) : r = r' := by
  obtain ⟨i, rfl⟩ := exists_eq_rowOf hr
  obtain ⟨j, rfl⟩ := exists_eq_rowOf hr'
  have hi := ((and_mask_rowOf_eq_pattern_iff w i).1 h).1
  have hj := ((and_mask_rowOf_eq_pattern_iff w j).1 h').1
  exact rowOf_eq_of_opcode_eq (hi.symm.trans hj)

/-- A word that selects no row is rejected, and no other word is. -/
theorem selects_no_row_iff (w : Word) :
    (∀ r ∈ opcodeTable, w &&& r.mask ≠ r.pattern) ↔ ∃ e, decode w = .error e := by
  constructor
  · intro hnone
    rcases hd : decode w with e | i
    · exact ⟨e, rfl⟩
    · exact absurd ((selects_rowOf_iff w i).2 ⟨i, hd, rfl⟩) (hnone _ (rowOf_mem_opcodeTable i))
  · rintro ⟨e, he⟩ r hr hsel
    obtain ⟨i, rfl⟩ := exists_eq_rowOf hr
    obtain ⟨j, hj, -⟩ := (selects_rowOf_iff w i).1 hsel
    cases he.symm.trans hj

/-! ### Illegal words (R74, R75) -/

/-- The words that R74 and R75 call illegal, by opcode and format, as `Obligations.IllegalWordsFault` names them. -/
def Illegal (w : Word) : Prop :=
  w.toNat / 2 ^ 24 ∉ [0x10, 0x11, 0x12, 0x13, 0x14, 0x15, 0x20, 0x21, 0x22, 0x23, 0x24, 0x25, 0x26,
      0x30, 0x31, 0x32, 0x33, 0x34] ∨
    (w.toNat / 2 ^ 24 ∈ [0x20, 0x21, 0x22, 0x23, 0x24, 0x25, 0x26, 0x30, 0x31, 0x32, 0x33, 0x34] ∧
      w.toNat % 2 ^ 24 ≠ 0) ∨
    (w.toNat / 2 ^ 24 ∈ [0x12, 0x14, 0x15] ∧ w.toNat % 2 ^ 18 ≠ 0) ∨
    (w.toNat / 2 ^ 24 ∈ [0x10, 0x11] ∧ w.toNat % 2 ^ 12 ≠ 0)

/-- The word of a command is not illegal. -/
theorem not_illegal_encode (i : Instr) : ¬ Illegal (encode i) := by
  have hop : (encode i).toNat / 2 ^ 24 = (opcode i).toNat := by rw [← toNat_opField, opField_encode]
  have hzero := encode_mod_zeroBits i
  rw [Illegal, hop]
  cases i with
  | lrol => simp [opcode]
  | _ => simpa [opcode, zeroBits] using hzero

theorem decode_error_of_illegal {w : Word} (h : Illegal w) : ∃ e, decode w = .error e := by
  rcases hd : decode w with e | i
  · exact ⟨e, rfl⟩
  · exact absurd (decode_eq_ok_iff.1 hd ▸ h) (not_illegal_encode i)

end Sys2Proof

namespace Sys2Proof.Machine

/-! ### One step, one event of the host (R60, R61) -/

section
variable {s : State} {w : Word} {p : List Byte} {rest : List HostEvent} {i : Instr}

theorem step_of_command (h : s.pending = .command w p :: rest) :
    step s = transaction w p { s with pending := rest } := by
  rw [step, serve, h]

theorem step_of_readStatus (h : s.pending = .readStatus :: rest) :
    step s = .next (readStatus { s with pending := rest }) := by
  rw [step, serve, h]

theorem transaction_of_decode_ok (h : decode w = .ok i) : transaction w p s = complete (exec i (present p s)) := by
  rw [transaction, h]

theorem transaction_of_decode_error {e : Reject} (h : decode w = .error e) :
    transaction w p s = .next (answerOutput (rejectWord (present p s))) := by
  rw [transaction, h, complete]

/-- A transaction that faults changes `ERR` and `CAUSE` and answers an empty output (R224). -/
theorem answerOutput_takeFault_present (c : Cause) :
    answerOutput (takeFault c (present p { s with pending := rest })) =
      afterAnswer { s with ERR := true, CAUSE := c } rest [] := rfl

/-- A word that decodes to nothing faults with ILLEGAL_COMMAND while no fault stands (R225, R227). -/
theorem step_of_decode_error {e : Reject} (hE : s.ERR = false) (h : s.pending = .command w p :: rest)
    (hd : decode w = .error e) :
    step s = .next (afterAnswer { s with ERR := true, CAUSE := .illegalCommand } rest []) := by
  have hreject : rejectWord (present p { s with pending := rest }) =
      takeFault .illegalCommand (present p { s with pending := rest }) := by
    rw [rejectWord, present_ERR, hE]
    exact if_neg Bool.false_ne_true
  rw [step_of_command h, transaction_of_decode_error hd, hreject, answerOutput_takeFault_present]

end

section
variable (i : Instr) (s : State)

/-- Every command answers a next state and leaves the host's lists alone. -/
theorem exec_keeps_host : ∃ t, exec i s = .next t ∧ t.pending = s.pending ∧ t.answers = s.answers := by
  rcases exec_cases i s with ⟨-, he⟩ | ⟨-, c, -, he⟩ | ⟨-, m, r, o, he, -⟩
  · exact ⟨_, he, refuseCommand_pending s, refuseCommand_answers s⟩
  · exact ⟨_, he, takeFault_pending s c, takeFault_answers s c⟩
  · exact ⟨_, he, withEffect_pending s m r o, withEffect_answers s m r o⟩

theorem rejectWord_keeps_host : (rejectWord s).pending = s.pending ∧ (rejectWord s).answers = s.answers := by
  rcases rejectWord_cases s with ⟨-, he⟩ | ⟨-, he⟩ <;> rw [he] <;> exact ⟨rfl, rfl⟩

/-- Every step answers a next state in which the host's next event is gone and at most one answer has come. -/
theorem step_takes_next_event :
    ∃ t, step s = .next t ∧ t.pending = s.pending.tail ∧ ∃ a, t.answers = s.answers ++ a ∧ a.length ≤ 1 := by
  rcases step_cases s with ⟨hp, he⟩ | ⟨rest, hp, he⟩ | ⟨rest, hp, he⟩ | ⟨w, p, rest, e, hp, -, he⟩ |
    ⟨w, p, rest, i, hp, -, he⟩
  · exact ⟨_, he, by rw [hp, List.tail_nil], [], by rw [List.append_nil], by decide⟩
  · exact ⟨_, he, by rw [hp]; rfl, [_], rfl, Nat.le_refl 1⟩
  · exact ⟨_, he, by rw [hp]; rfl, [], (List.append_nil _).symm, by decide⟩
  · obtain ⟨hpend, hans⟩ := rejectWord_keeps_host (present p { s with pending := rest })
    exact ⟨_, he, by rw [hp, answerOutput_pending, hpend]; rfl, [_],
      by rw [answerOutput_answers, hans]; rfl, Nat.le_refl 1⟩
  · obtain ⟨t, ht, hpend, hans⟩ := exec_keeps_host i (present p { s with pending := rest })
    exact ⟨answerOutput t, by rw [he, ht, complete], by rw [hp, answerOutput_pending, hpend]; rfl, [_],
      by rw [answerOutput_answers, hans]; rfl, Nat.le_refl 1⟩

end

/-! ### One lane written (R80) -/

/-- The lane that a write put at its place. -/
theorem laneOf_writeBytes_laneOffset (s : State) (d : LaneRef) (v : Lane) (r : Byte) (o : List Byte) :
    laneOf (withEffect s (Memory.writeBytes s.S (laneOffset d) (longToByte v)) r o)
      (laneIndex d.x.toNat d.y.toNat) = v := by
  have hback := Memory.readBytes_writeBytes s.S (laneOffset d) (longToByte v)
  rw [length_longToByte] at hback
  rw [laneOf, withEffect_S, ← laneOffset, hback, byteToLong_longToByte]

@[simp] theorem rotl64_zero (v : Lane) : rotl64 v 0 = v := if_pos rfl

end Sys2Proof.Machine

/-! ### The obligations -/

open Sys2Proof Sys2Proof.Machine

/-- Settles O1: a word decodes to a command exactly when it is the command's word. -/
theorem decodeOfEncodeIsTheCommand : Obligations.DecodeOfEncodeIsTheCommand :=
  fun _ => decode_eq_ok_iff.2 rfl

/-- Settles O2, by the other direction of the same equivalence. -/
theorem encodeOfDecodeIsTheWord : Obligations.EncodeOfDecodeIsTheWord :=
  fun _ _ => decode_eq_ok_iff.1

/-- Settles O3: every row of the table is the row of a command, and a command's row asks what the decoder asks. -/
theorem decodeFollowsTheOpcodeTable : Obligations.DecodeFollowsTheOpcodeTable := by
  refine ⟨fun w r hr => ?_, fun w r hr r' hr' => row_eq_of_selects hr hr', selects_no_row_iff,
    fun i => ⟨rowOf i, rowOf_mem_opcodeTable i, rfl, rfl, rfl⟩⟩
  obtain ⟨i, rfl⟩ := exists_eq_rowOf hr
  exact selects_rowOf_iff w i

/-- Settles O4: the word is the command's own, so its fields are the operands. -/
theorem operandsComeFromTheirFields : Obligations.OperandsComeFromTheirFields := by
  refine ⟨fun w d s n h => ?_, fun w d s n h => ?_, fun w d h => ?_⟩
  · have hfields : dstField w = d ∧ srcField w = s := by
      rcases h with h | h | h <;>
        exact decode_eq_ok_iff.1 h ▸ ⟨dstField_assemble .., srcField_assemble ..⟩
    obtain ⟨rfl, rfl⟩ := hfields
    exact ⟨toNat_dstField_x w, toNat_dstField_y w, toNat_srcField_x w, toNat_srcField_y w⟩
  · have himm : immField w = n := decode_eq_ok_iff.1 h ▸ immField_assemble ..
    exact himm ▸ toNat_immField w
  · have hdst : dstField w = d := by
      rcases h with h | h | h <;> exact decode_eq_ok_iff.1 h ▸ dstField_assemble ..
    exact hdst ▸ ⟨toNat_dstField_x w, toNat_dstField_y w⟩

/-- Settles O5: such a word is the word of no command, so it does not decode. -/
theorem illegalWordsFault : Obligations.IllegalWordsFault := by
  intro s w p rest hE hp hw
  obtain ⟨e, he⟩ := decode_error_of_illegal hw
  exact step_of_decode_error hE hp he

/-- Settles O8: each of a step's five cases answers a next state, and no command stops the model. -/
theorem stepAlwaysAnswersANextState : Obligations.StepAlwaysAnswersANextState := by
  intro s
  obtain ⟨t, ht, -⟩ := step_takes_next_event s
  exact ⟨t, ht⟩

/-- Settles O20: a step takes the head of the host's list, and commands leave the host's lists alone. -/
theorem stepTakesOneHostEvent : Obligations.StepTakesOneHostEvent := by
  intro s t e rest hp ht
  obtain ⟨u, hu, hpend, hans⟩ := step_takes_next_event s
  cases hu.symm.trans ht
  exact ⟨by rw [hpend, hp, List.tail_cons], hans⟩

/-- Settles O37: LMOV is LROL by 0, which rotates nothing, and LCLR is LXOR of the lane with itself. -/
theorem pseudoInstructionsCopyAndClear : Obligations.PseudoInstructionsCopyAndClear := by
  intro d t s hE hd ht hp
  have hlmov : Ready (lmov d t) s := ⟨hE, by simp [lmov, Instr.wf, hd, ht], by simp [lmov, hp, payloadBytes]⟩
  have hlclr : Ready (lclr d) s := ⟨hE, by simp [lclr, Instr.wf, hd], by simp [lclr, hp, payloadBytes]⟩
  refine ⟨⟨_, execLrol_ready hlmov, ?_, sameOutside_writeBytes _ _ (length_longToByte _)⟩,
    ⟨_, execLxor_ready hlclr, ?_, sameOutside_writeBytes _ _ (length_longToByte _)⟩⟩
  · rw [laneOf_writeBytes_laneOffset]
    exact rotl64_zero _
  · rw [laneOf_writeBytes_laneOffset, BitVec.xor_self]

/-- Settles O7: the transaction is the decoded command, run with the payload presented and then answered. -/
theorem stepRunsTheDecodedCommand : Obligations.StepRunsTheDecodedCommand := by
  intro s t w p rest i hp hd ht
  have hexec : exec i (present p { s with pending := rest }) = .next t := ht
  rw [step_of_command hp, transaction_of_decode_ok hd, hexec]
  rfl

/-- Settles O15: the word answered is `STATUS`, whose value is the sum of its fields. -/
theorem statusReadReturnsTheStatusWord : Obligations.StatusReadReturnsTheStatusWord :=
  fun s _ hp => ⟨statusWord s, toNat_statusWord s, step_of_readStatus hp⟩
end

section
/-! PROOFS of family 40_lane_primitives.md, first the facts they share: a rotation bit by bit (R104), the bytes of a
lane and of a partial XOR (R105, R101), and what a lane command leaves once it has written its lane (R110 to R114). -/
namespace Sys2Proof.Machine

/-! ### Rotation (R104) -/

/-- `rotl64` is the library's rotation. -/
theorem rotl64_eq_rotateLeft (v : Lane) (n : Nat) : rotl64 v n = v.rotateLeft n := by
  by_cases h : n % 64 = 0
  · rw [rotl64, if_pos h, BitVec.rotateLeft_def, h, BitVec.shiftLeft_zero,
      BitVec.ushiftRight_eq_zero (Nat.le_refl _), BitVec.or_zero]
  · exact if_neg h

/-- Bit `k` of a rotation is the bit `n mod 64` places below it, round the corner. -/
theorem getLsbD_rotl64 (v : Lane) (n : Nat) {k : Nat} (hk : k < 64) :
    (rotl64 v n).getLsbD k = v.getLsbD ((k + (64 - n % 64)) % 64) := by
  rw [rotl64_eq_rotateLeft, BitVec.getLsbD_rotateLeft]
  by_cases h : k < n % 64
  · rw [decide_eq_true h, cond_true]
    congr 1
    omega
  · rw [decide_eq_false h, cond_false, decide_eq_true hk, Bool.true_and]
    congr 1
    omega

/-- Only the residue of the amount modulo 64 counts. -/
theorem rotl64_mod (v : Lane) (n : Nat) : rotl64 v (n % 64) = rotl64 v n := by
  rw [rotl64, rotl64, Nat.mod_mod]

/-- Two rotations are one by the sum of their amounts. -/
theorem rotl64_rotl64 (v : Lane) (a b : Nat) : rotl64 (rotl64 v a) b = rotl64 v ((a + b) % 64) := by
  refine BitVec.eq_of_getLsbD_eq fun k hk => ?_
  rw [getLsbD_rotl64 _ _ hk, getLsbD_rotl64 _ _ (Nat.mod_lt _ (by decide)), getLsbD_rotl64 _ _ hk]
  congr 1
  omega

theorem rotl64_xor (a b : Lane) (n : Nat) : rotl64 (a ^^^ b) n = rotl64 a n ^^^ rotl64 b n :=
  BitVec.eq_of_getLsbD_eq fun k hk => by simp [getLsbD_rotl64 _ _ hk]

theorem rotl64_and (a b : Lane) (n : Nat) : rotl64 (a &&& b) n = rotl64 a n &&& rotl64 b n :=
  BitVec.eq_of_getLsbD_eq fun k hk => by simp [getLsbD_rotl64 _ _ hk]

theorem rotl64_not (a : Lane) (n : Nat) : rotl64 (~~~a) n = ~~~(rotl64 a n) :=
  BitVec.eq_of_getLsbD_eq fun k hk => by
    have hsource : (k + (64 - n % 64)) % 64 < 64 := Nat.mod_lt _ (by decide)
    rw [BitVec.getLsbD_not, getLsbD_rotl64 _ _ hk, getLsbD_rotl64 _ _ hk, BitVec.getLsbD_not,
      decide_eq_true hsource, decide_eq_true hk]

/-! ### Bytes (R101, R105) -/

/-- Byte `i` of a lane, the lowest first. -/
theorem toNat_getD_longToByte (v : Lane) {i : Nat} (hi : i < 8) :
    ((longToByte v).getD i 0#8).toNat = v.toNat / 2 ^ (8 * i) % 256 := by
  simp [longToByte, hi, Nat.shiftRight_eq_div_pow]

section
variable {a b : List Byte} {n : Nat}

theorem length_xorN (ha : n ≤ a.length) (hb : n ≤ b.length) : (xorN a b n).length = a.length := by
  simp only [xorN, List.length_append, List.length_zipWith, List.length_take, List.length_drop]
  omega

theorem getD_xorN (ha : n ≤ a.length) (hb : n ≤ b.length) {i : Nat} (hi : i < a.length) :
    (xorN a b n).getD i 0#8 = if i < n then a.getD i 0#8 ^^^ b.getD i 0#8 else a.getD i 0#8 := by
  have hxored : (List.zipWith (· ^^^ ·) (a.take n) (b.take n)).length = n := by
    rw [List.length_zipWith, List.length_take_of_le ha, List.length_take_of_le hb, Nat.min_self]
  by_cases h : i < n
  · rw [if_pos h, xorN, List.getD_append _ _ _ _ (by omega)]
    have hib : i < b.length := by omega
    simp [h, hi, hib]
  · rw [if_neg h, xorN, List.getD_append_right _ _ _ _ (by omega), hxored]
    simp [Nat.add_sub_cancel' (Nat.not_lt.1 h)]

end

/-! ### The lane commands (R110 to R114) -/

theorem kept_withEffect (s : State) (m : List Host.Cell) (r : Byte) (o : List Byte) : Kept s (withEffect s m r o) :=
  ⟨rfl, rfl, rfl, rfl, rfl⟩

/-- What a command that has written one lane leaves: the lane with its new value, and everything else as before. -/
theorem result_of_lane_written {out : Outcome} {s : State} {d : LaneRef} {v : Lane}
    (h : out = .next (withEffect s (Memory.writeBytes s.S (laneOffset d) (longToByte v)) s.R [])) :
    ∃ u, out = .next u ∧ laneOf u (laneIndex d.x.toNat d.y.toNat) = v ∧
      SameOutside s u (laneOffset d) 8 ∧ u.R = s.R ∧ Kept s u ∧ u.output = [] :=
  ⟨_, h, laneOf_writeBytes_laneOffset .., sameOutside_writeBytes _ _ (length_longToByte v), rfl,
    kept_withEffect .., rfl⟩

end Sys2Proof.Machine

/-! ### The obligations -/

open Sys2Proof Sys2Proof.Machine

/-- Settles O25: the bit that arrives at place `(k + n mod 64) mod 64` comes from place `k`. -/
theorem rotateMovesEachBit : Obligations.RotateMovesEachBit := by
  intro v n k hk
  rw [getLsbD_rotl64 _ _ (Nat.mod_lt _ (by decide))]
  congr 1
  omega

/-- Settles O26: 64 is 0 modulo 64, and amounts add up. -/
theorem rotationLaws : Obligations.RotationLaws :=
  ⟨rotl64_zero, fun v => (rotl64_mod v 64).symm.trans (rotl64_zero v), rotl64_rotl64⟩

/-- Settles O27: rotation permutes the bits, and the three operations work bit by bit. -/
theorem rotationIsBitwise : Obligations.RotationIsBitwise :=
  fun a b n => ⟨rotl64_xor a b n, rotl64_not a n, rotl64_and a b n⟩

/-- Settles O28: the two inverses, and each byte as a digit of the lane to the base 256. -/
theorem laneByteConversionRoundTrips : Obligations.LaneByteConversionRoundTrips :=
  ⟨byteToLong_longToByte, fun _ => longToByte_byteToLong, fun v _ => toNat_getD_longToByte v⟩

/-- Settles O29: below `n` the byte lies in the XORed part, from `n` on in the rest of `a`. -/
theorem partialXorChangesAPrefix : Obligations.PartialXorChangesAPrefix :=
  fun _ _ _ ha hb => ⟨length_xorN ha hb, fun _ => getD_xorN ha hb⟩

/-- Settles O30: LXOR writes the XOR of its two lanes to the destination lane. -/
theorem lxorResult : Obligations.LxorResult :=
  fun _ _ _ h => result_of_lane_written (execLxor_ready h)

/-- Settles O31: LAND writes the AND of its two lanes to the destination lane. -/
theorem landResult : Obligations.LandResult :=
  fun _ _ _ h => result_of_lane_written (execLand_ready h)

/-- Settles O32: LNOT writes the complement, which is the XOR with all ones. -/
theorem lnotResult : Obligations.LnotResult := by
  intro d s h
  have hones : ∀ v : Lane, v ^^^ 0xFFFFFFFFFFFFFFFF#64 = ~~~v := fun v => BitVec.xor_allOnes
  rw [hones]
  exact result_of_lane_written (execLnot_ready h)

/-- Settles O33: LROL writes the rotated source lane, and amounts count modulo 64. -/
theorem lrolResult : Obligations.LrolResult := by
  intro d t n s h
  rw [BitVec.rotateLeft_mod_eq_rotateLeft, ← rotl64_eq_rotateLeft]
  exact result_of_lane_written (execLrol_ready h)

/-- Settles O34: LDL writes the payload's lane, whose bytes are the payload's. -/
theorem ldlResult : Obligations.LdlResult := by
  intro d s h
  obtain ⟨u, hu, hlane, hframe⟩ := result_of_lane_written (execLdl_ready h)
  obtain ⟨-, -, hlen⟩ := h
  refine ⟨u, hu, hlane, ?_, hframe⟩
  calc Memory.readBytes u.S (laneOffset d) 8
      = longToByte (laneOf u (laneIndex d.x.toNat d.y.toNat)) := (longToByte_laneOf u _).symm
    _ = s.payload := by rw [hlane, longToByte_byteToLong hlen]

/-- Settles O35: STL emits the bytes of the lane, which are those that `S` holds, and writes nothing. -/
theorem stlResult : Obligations.StlResult :=
  fun _ s h => ⟨_, execStl_ready h, longToByte_laneOf s _, rfl, fun _ => rfl, rfl, kept_withEffect ..⟩

/-- Settles O36: the three commands with both operands the same; each keeps `ERR`, which was 0. -/
theorem sameLaneAsSourceAndDestination : Obligations.SameLaneAsSourceAndDestination := by
  intro d n s hE hd hp
  have hready : Ready (.lxor d d) s ∧ Ready (.land d d) s ∧ Ready (.lrol d d n) s := by
    simp [Ready, hE, hd, hp, Instr.wf, payloadBytes]
  obtain ⟨hlxor, hland, hlrol⟩ := hready
  refine ⟨?_, ?_, ?_⟩
  · obtain ⟨u, hu, hlane, -, -, hkept, -⟩ := result_of_lane_written (execLxor_ready hlxor)
    exact ⟨u, hu, hkept.1.trans hE, hkept, hlane.trans BitVec.xor_self⟩
  · obtain ⟨u, hu, hlane, -, -, hkept, -⟩ := result_of_lane_written (execLand_ready hland)
    exact ⟨u, hu, hkept.1.trans hE, hkept, hlane.trans BitVec.and_self⟩
  · obtain ⟨u, hu, hlane, -, -, hkept, -⟩ := result_of_lane_written (execLrol_ready hlrol)
    exact ⟨u, hu, hkept.1.trans hE, hkept, hlane⟩
end

section
/-! PROOFS of family 41_permutation.md, first the facts they share: the lanes of a state as one array and what a command
that writes all 25 of them leaves (R23), each mapping lane by lane (R131, R134, R136, R163), and that each mapping loses
no information (R143). -/
namespace Sys2Proof.Machine

/-! ### The array that `S` holds (R23) -/

/-- The 25 lanes of a state: what `withCube` hands to a command's meaning. -/
def State.cube (s : State) : Cube := unflatten (Memory.readBytes s.S 0 200)

theorem laneAt_cube (s : State) {l : Nat} (h : l < 25) : laneAt s.cube l = laneOf s l := laneAt_unflatten s h

theorem laneIndex_lt {x y : Nat} (hx : x < 5) (hy : y < 5) : laneIndex x y < 25 := by
  rw [laneIndex]
  omega

theorem lane_cube (s : State) {x y : Nat} (hx : x < 5) (hy : y < 5) : lane s.cube x y = laneOf s (laneIndex x y) :=
  laneAt_cube s (laneIndex_lt hx hy)

theorem flatten_cube (s : State) : flatten s.cube = Memory.readBytes s.S 0 200 :=
  flatten_unflatten (Memory.length_readBytes _ _ _)

/-- Two states hold the same array exactly when they hold the same 200 bytes. -/
theorem cube_eq_iff {s t : State} : s.cube = t.cube ↔ ∀ a, a < 200 → Memory.read s.S a = Memory.read t.S a := by
  constructor
  · intro h a ha
    have hbytes : Memory.readBytes s.S 0 200 = Memory.readBytes t.S 0 200 := by rw [← flatten_cube, h, flatten_cube]
    exact Memory.read_eq_of_readBytes_eq hbytes (Nat.zero_le a) (by omega)
  · intro h
    exact congrArg unflatten (Memory.readBytes_congr fun a _ ha => h a (by omega))

/-! ### Commands that leave a whole array -/

/-- From `s` an executed command has come to `u`, which holds the array `A` and the LFSR value `r`; nothing else has
changed, and nothing is emitted. -/
structure LeavesCube (s u : State) (A : Cube) (r : Byte) : Prop where
  cube_eq : u.cube = A
  R_eq : u.R = r
  sameOutside : SameOutside s u 0 200
  kept : Kept s u
  output_eq : u.output = []

namespace LeavesCube

section
variable {s u v : State} {A B : Cube} {q r : Byte}

theorem trans (h : LeavesCube s u A q) (h' : LeavesCube u v B r) : LeavesCube s v B r where
  cube_eq := h'.cube_eq
  R_eq := h'.R_eq
  sameOutside := fun a ha => (h'.sameOutside a ha).trans (h.sameOutside a ha)
  kept := by
    obtain ⟨hE, hC, hp, hpend, hans⟩ := h.kept
    obtain ⟨hE', hC', hp', hpend', hans'⟩ := h'.kept
    exact ⟨hE'.trans hE, hC'.trans hC, hp'.trans hp, hpend'.trans hpend, hans'.trans hans⟩
  output_eq := h'.output_eq

/-- Two ways from one state to the same array leave the same bytes. -/
theorem sameBytes (h : LeavesCube s u A q) (h' : LeavesCube s v A r) : SameBytes u v := by
  intro a
  by_cases ha : a < 200
  · exact cube_eq_iff.1 (h'.cube_eq.trans h.cube_eq.symm) a ha
  · have hout : a < 0 ∨ 0 + 200 ≤ a := by omega
    rw [h'.sameOutside a hout, h.sameOutside a hout]

/-- What the command leaves unchanged makes the next one ready, if it takes a payload of the same length. -/
theorem ready (h : LeavesCube s u A q) {i j : Instr} (hs : Ready i s) (hj : j.wf = true)
    (hlen : payloadBytes i = payloadBytes j) : Ready j u := by
  obtain ⟨hE, -, hp⟩ := hs
  obtain ⟨hE', -, hp', -⟩ := h.kept
  exact ⟨hE'.trans hE, hj, by rw [hp', hp, hlen]⟩

end

/-- Writing 25 lanes and `R` is all that an effect does. -/
theorem of_writeBytes_flatten (s : State) (A : Cube) (r : Byte) :
    LeavesCube s (withEffect s (Memory.writeBytes s.S 0 (flatten A)) r []) A r where
  cube_eq := cube_ext fun l hl => by
    rw [laneAt_cube _ hl, laneOf, withEffect_S, readBytes_writeBytes_flatten _ _ hl, byteToLong_longToByte]
  R_eq := rfl
  sameOutside := sameOutside_writeBytes r [] (length_flatten A)
  kept := kept_withEffect ..
  output_eq := rfl

/-- Writing lane (0,0) and `R` leaves the array with that lane replaced. -/
theorem of_writeBytes_longToByte (s : State) (v : Lane) (r : Byte) :
    LeavesCube s (withEffect s (Memory.writeBytes s.S 0 (longToByte v)) r []) (s.cube.setIfInBounds 0 v) r where
  cube_eq := cube_ext fun l hl => by
    rw [laneAt_cube _ hl, laneAt_setIfInBounds _ _ hl]
    by_cases h : 0 = l
    · rw [if_pos h, ← h]
      exact laneOf_writeBytes_laneOffset s ⟨0#3, 0#3⟩ v r []
    · rw [if_neg h, laneAt_cube s hl]
      refine congrArg byteToLong (Memory.readBytes_congr fun a ha _ => ?_)
      exact Memory.read_writeBytes_outside s.S (.inr (by rw [length_longToByte]; omega))
  R_eq := rfl
  sameOutside := fun a ha => Memory.read_writeBytes_outside s.S (by rw [length_longToByte]; omega)
  kept := kept_withEffect ..
  output_eq := rfl

end LeavesCube

section
variable {s : State}

theorem execTheta_leaves (h : Ready .theta s) : ∃ u, exec .theta s = .next u ∧ LeavesCube s u (theta s.cube) s.R :=
  ⟨_, execTheta_ready h, .of_writeBytes_flatten ..⟩

theorem execRhopi_leaves (h : Ready .rhopi s) : ∃ u, exec .rhopi s = .next u ∧ LeavesCube s u (rhopi s.cube) s.R :=
  ⟨_, execRhopi_ready h, .of_writeBytes_flatten ..⟩

theorem execChi_leaves (h : Ready .chi s) : ∃ u, exec .chi s = .next u ∧ LeavesCube s u (chi s.cube) s.R :=
  ⟨_, execChi_ready h, .of_writeBytes_flatten ..⟩

theorem execIota_leaves (h : Ready .iota s) :
    ∃ u, exec .iota s = .next u ∧ LeavesCube s u (iota s.cube s.R).1 (iota s.cube s.R).2 := by
  refine ⟨_, execIota_ready h, ?_⟩
  rw [← laneAt_cube s (by decide)]
  exact .of_writeBytes_longToByte ..

theorem execRound_leaves (h : Ready .round s) :
    ∃ u, exec .round s = .next u ∧ LeavesCube s u (roundStep (s.cube, s.R)).1 (roundStep (s.cube, s.R)).2 :=
  ⟨_, execRound_ready h, .of_writeBytes_flatten ..⟩

theorem execPermute_leaves (h : Ready .permute s) :
    ∃ u, exec .permute s = .next u ∧ LeavesCube s u (permute s.cube).1 (permute s.cube).2 :=
  ⟨_, execPermute_ready h, .of_writeBytes_flatten ..⟩

theorem execRcinit_leaves (h : Ready .rcinit s) : ∃ u, exec .rcinit s = .next u ∧ LeavesCube s u s.cube 0x01#8 :=
  ⟨_, execRcinit_ready h, rfl, rfl, sameOutside_of_S_eq rfl, kept_withEffect .., rfl⟩

/-- LDS fills `S` with the payload. -/
theorem execLds_leaves (h : Ready .lds s) :
    ∃ u, exec .lds s = .next u ∧ LeavesCube s u (unflatten s.payload) s.R := by
  have hlen : s.payload.length = 200 := h.2.2
  refine ⟨_, execLds_ready h, ?_⟩
  have hleaves := LeavesCube.of_writeBytes_flatten s (unflatten s.payload) s.R
  rwa [flatten_unflatten hlen] at hleaves

/-- THETA, RHOPI, CHI and IOTA one after the other (R138). -/
theorem exec_four_steps_leaves (h : Ready .theta s) : ∃ u₁ u₂ u₃ u₄, exec .theta s = .next u₁ ∧
    exec .rhopi u₁ = .next u₂ ∧ exec .chi u₂ = .next u₃ ∧ exec .iota u₃ = .next u₄ ∧
    LeavesCube s u₄ (roundStep (s.cube, s.R)).1 (roundStep (s.cube, s.R)).2 := by
  obtain ⟨u₁, he₁, h₁⟩ := execTheta_leaves h
  obtain ⟨u₂, he₂, h₂⟩ := execRhopi_leaves (h₁.ready h rfl rfl)
  rw [h₁.cube_eq, h₁.R_eq] at h₂
  have h₂ := h₁.trans h₂
  obtain ⟨u₃, he₃, h₃⟩ := execChi_leaves (h₂.ready h rfl rfl)
  rw [h₂.cube_eq, h₂.R_eq] at h₃
  have h₃ := h₂.trans h₃
  obtain ⟨u₄, he₄, h₄⟩ := execIota_leaves (h₃.ready h rfl rfl)
  rw [h₃.cube_eq, h₃.R_eq] at h₄
  exact ⟨u₁, u₂, u₃, u₄, he₁, he₂, he₃, he₄, h₃.trans h₄⟩

theorem execTimes_succ_of_next {i : Instr} {t : State} (n : Nat) (h : exec i s = .next t) :
    execTimes (n + 1) i s = execTimes n i t := by
  rw [execTimes, h]

/-- `n` ROUND commands carry an array and the LFSR through `n` rounds. -/
theorem execTimes_round_leaves (n : Nat) {v : State} {A : Cube} {r : Byte} (h : LeavesCube s v A r)
    (hv : Ready .round v) :
    ∃ w, execTimes n .round v = .next w ∧ LeavesCube s w (rounds n (A, r)).1 (rounds n (A, r)).2 := by
  induction n generalizing v A r with
  | zero => exact ⟨v, rfl, h⟩
  | succ n ih =>
    obtain ⟨v', he, h'⟩ := execRound_leaves hv
    obtain ⟨w, hw, hround⟩ := ih (h.trans h') (h'.ready hv rfl rfl)
    rw [h.cube_eq, h.R_eq] at hround
    exact ⟨w, (execTimes_succ_of_next n he).trans hw, hround⟩

end

/-- R165: from the seed, 24 rounds end with `R` = 0x8E. -/
theorem permute_snd (A : Cube) : (permute A).2 = 0x8E#8 := by
  have hseed : lfsrStep^[7 * 24] 0x01#8 = 0x8E#8 := by decide +kernel
  rw [permute, rounds_snd]
  exact hseed

/-! ### XOR of lanes -/

theorem lane_xor_left_comm (a b c : Lane) : a ^^^ (b ^^^ c) = b ^^^ (a ^^^ c) := by
  rw [← BitVec.xor_assoc, BitVec.xor_comm a b, BitVec.xor_assoc]

theorem lane_xor_xor_self (a b : Lane) : a ^^^ (a ^^^ b) = b := by
  rw [← BitVec.xor_assoc, BitVec.xor_self, BitVec.zero_xor]

/-! ### Theta (R131) -/

theorem laneIndex_mod {x y : Nat} (hx : x < 5) : laneIndex x y % 5 = x := by
  rw [laneIndex]
  omega

theorem laneIndex_div {x y : Nat} (hx : x < 5) : laneIndex x y / 5 = y := by
  rw [laneIndex]
  omega

/-- What theta XORs into the lanes of column `x`. -/
def thetaMask (A : Cube) (x : Nat) : Lane := parity A ((x + 4) % 5) ^^^ rotl64 (parity A ((x + 1) % 5)) 1

theorem laneAt_theta (A : Cube) {l : Nat} (hl : l < 25) :
    laneAt (theta A) l = laneAt A l ^^^ thetaMask A (l % 5) := by
  have hget : ∀ (f : Nat → Lane) (x : Nat), x < 5 → ((List.range 5).map f).getD x 0#64 = f x := fun f x hx => by
    simp [List.getD_eq_getElem?_getD, hx]
  have hmod : ∀ x, x % 5 < 5 := fun x => Nat.mod_lt x (by decide)
  rw [theta, laneAt_cubeOf _ hl, hget _ _ (hmod _), hget _ _ (hmod _), hget _ _ (hmod _), thetaMask]

theorem lane_theta (A : Cube) {x y : Nat} (hx : x < 5) (hy : y < 5) :
    lane (theta A) x y = lane A x y ^^^ thetaMask A x := by
  rw [lane, laneAt_theta A (laneIndex_lt hx hy), laneIndex_mod hx, lane]

/-- A mask XORed into all five lanes of a column stands in their parity once. -/
theorem parity_theta (A : Cube) {x : Nat} (hx : x < 5) : parity (theta A) x = parity A x ^^^ thetaMask A x := by
  have hlane : ∀ y, y < 5 → lane (theta A) x y = lane A x y ^^^ thetaMask A x := fun y => lane_theta A hx
  rw [parity, hlane 0 (by decide), hlane 1 (by decide), hlane 2 (by decide), hlane 3 (by decide),
    hlane 4 (by decide), parity]
  simp only [BitVec.xor_assoc, BitVec.xor_comm, lane_xor_left_comm, lane_xor_xor_self]

/-- The map of theta on the five parities, for neighbours `a` columns away and a rotation by `n`: theta's own is that
of `a = 1` and `n = 1`. -/
def parityMap (a : ZMod 5) (n : Nat) (P : ZMod 5 → Lane) : ZMod 5 → Lane :=
  fun x => P x ^^^ (P (x - a) ^^^ rotl64 (P (x + a)) n)

/-- XOR cancels the mixed terms, so the map applied twice is the map of twice the distance and twice the rotation. -/
theorem parityMap_comp_self (a : ZMod 5) (n : Nat) :
    parityMap a n ∘ parityMap a n = parityMap (2 * a) (2 * n) := by
  have hrot : ∀ v, rotl64 (rotl64 v n) n = rotl64 v (2 * n) := fun v => by
    rw [rotl64_rotl64, rotl64_mod, Nat.two_mul]
  funext P x
  have hleft : x - a - a = x - 2 * a := by ring
  have hright : x + a + a = x + 2 * a := by ring
  simp only [Function.comp_apply, parityMap, rotl64_xor, hrot, sub_add_cancel, add_sub_cancel_right, hleft, hright,
    BitVec.xor_assoc, lane_xor_left_comm, lane_xor_xor_self]

theorem parityMap_injective_of_double {a : ZMod 5} {n : Nat} (h : Function.Injective (parityMap (2 * a) (2 * n))) :
    Function.Injective (parityMap a n) :=
  (parityMap_comp_self a n ▸ h).of_comp

/-- Modulo 5, 64 is -1 and 128 is -2, and both rotate by nothing: the two maps undo each other, since every term but
`P x` stands in their composition twice. -/
theorem parityMap_leftInverse : Function.LeftInverse (parityMap 128 128) (parityMap 64 64) := by
  intro P
  have hrot64 : ∀ v, rotl64 v 64 = v := fun v => (rotl64_mod v 64).symm.trans (rotl64_zero v)
  have hrot128 : ∀ v, rotl64 v 128 = v := fun v => (rotl64_mod v 128).symm.trans (rotl64_zero v)
  funext x
  have hsubsub : x - 128 - 64 = x + 128 := by decide +revert
  have hsubadd : x - 128 + 64 = x - 64 := by decide +revert
  have haddsub : x + 128 - 64 = x + 64 := by decide +revert
  have haddadd : x + 128 + 64 = x - 128 := by decide +revert
  simp only [parityMap, hrot64, hrot128, hsubsub, hsubadd, haddsub, haddadd, BitVec.xor_assoc, BitVec.xor_comm,
    lane_xor_left_comm, lane_xor_xor_self, BitVec.xor_self, BitVec.xor_zero]

/-- Six doublings lead from theta's own map to that of distance and rotation 64, which can be undone. -/
theorem parityMap_injective : Function.Injective (parityMap 1 1) := by
  have h32 : Function.Injective (parityMap 32 32) := parityMap_injective_of_double parityMap_leftInverse.injective
  have h16 : Function.Injective (parityMap 16 16) := parityMap_injective_of_double h32
  have h8 : Function.Injective (parityMap 8 8) := parityMap_injective_of_double h16
  have h4 : Function.Injective (parityMap 4 4) := parityMap_injective_of_double h8
  have h2 : Function.Injective (parityMap 2 2) := parityMap_injective_of_double h4
  exact parityMap_injective_of_double h2

/-- The parities after theta are the map of those before. -/
theorem parity_theta_eq_parityMap (A : Cube) :
    (fun x : ZMod 5 => parity (theta A) x.val) = parityMap 1 1 fun x => parity A x.val := by
  funext x
  have hleft : (x - 1).val = (x.val + 4) % 5 := by decide +revert
  have hright : (x + 1).val = (x.val + 1) % 5 := by decide +revert
  rw [parity_theta A x.val_lt, thetaMask, parityMap, hleft, hright]

/-- The parities come back from those after the step, then the masks, and with the masks the lanes. -/
theorem theta_injective : Function.Injective theta := by
  intro A B h
  have hparity : (fun x : ZMod 5 => parity A x.val) = fun x => parity B x.val :=
    parityMap_injective (by rw [← parity_theta_eq_parityMap, ← parity_theta_eq_parityMap, h])
  have hparity : ∀ x, x < 5 → parity A x = parity B x := fun x hx => by
    have := congrFun hparity (x : ZMod 5)
    rwa [ZMod.val_natCast, Nat.mod_eq_of_lt hx] at this
  have hmask : ∀ x, thetaMask A x = thetaMask B x := fun x => by
    rw [thetaMask, thetaMask, hparity _ (Nat.mod_lt _ (by decide)), hparity _ (Nat.mod_lt _ (by decide))]
  refine cube_ext fun l hl => ?_
  have hlane : laneAt (theta A) l = laneAt (theta B) l := by rw [h]
  rwa [laneAt_theta A hl, laneAt_theta B hl, hmask, BitVec.xor_left_inj] at hlane

/-! ### Rho-and-pi (R133, R134) -/

/-- One move of the chain of R133 on the coordinates. -/
def chainMove (c : Nat × Nat) : Nat × Nat := (c.2, (2 * c.1 + 3 * c.2) % 5)

/-- The index of the lane where the chain stands before step `t`. -/
def chainPlace (t : Nat) : Nat := laneIndex (chainMove^[t] (1, 0)).1 (chainMove^[t] (1, 0)).2

/-- The chain after `n` steps. -/
def chainAfter (A : Cube) (n : Nat) : Chain := (List.range n).foldl chainStep ⟨1, 0, lane A 1 0, A⟩

theorem chainAfter_succ (A : Cube) (n : Nat) : chainAfter A (n + 1) = chainStep (chainAfter A n) n := by
  rw [chainAfter, List.range_succ, List.foldl_concat, chainAfter]

theorem chainAfter_coordinates (A : Cube) (n : Nat) :
    ((chainAfter A n).x, (chainAfter A n).y) = chainMove^[n] (1, 0) := by
  induction n with
  | zero => rfl
  | succ n ih => rw [chainAfter_succ, Function.iterate_succ_apply', ← ih]; rfl

/-- The lane that step `n` overwrites. -/
theorem chainAfter_destination (A : Cube) (n : Nat) :
    laneIndex (chainAfter A n).y ((2 * (chainAfter A n).x + 3 * (chainAfter A n).y) % 5) = chainPlace (n + 1) := by
  rw [chainPlace, Function.iterate_succ_apply', ← chainAfter_coordinates A]
  rfl

theorem chainPlace_succ_lt {n : Nat} (h : n < 24) : chainPlace (n + 1) < 25 := by
  decide +revert

/-- No lane is overwritten twice. -/
theorem chainPlace_ne {n : Nat} (h : n < 24) : ∀ i < n, chainPlace (i + 1) ≠ chainPlace (n + 1) := by
  decide +revert

/-- The chain after `n` of its steps: it carries the lane of the array before it that stood where it stands, the lanes
that it has passed hold their sources rotated, and the others are untouched. -/
structure ChainCorrect (A : Cube) (n : Nat) : Prop where
  cur_eq : (chainAfter A n).cur = laneAt A (chainPlace n)
  passed : ∀ i < n, laneAt (chainAfter A n).A (chainPlace (i + 1)) =
    rotl64 (laneAt A (chainPlace i)) ((i + 1) * (i + 2) / 2)
  untouched : ∀ l < 25, (∀ i < n, chainPlace (i + 1) ≠ l) → laneAt (chainAfter A n).A l = laneAt A l

theorem chainCorrect (A : Cube) {n : Nat} (hn : n ≤ 24) : ChainCorrect A n := by
  induction n with
  | zero => exact ⟨rfl, fun i hi => absurd hi (Nat.not_lt_zero i), fun _ _ _ => rfl⟩
  | succ n ih =>
    obtain ⟨hcur, hpassed, huntouched⟩ := ih (by omega)
    have hfresh := chainPlace_ne hn
    have hA : ∀ l < 25, laneAt (chainAfter A (n + 1)).A l = if chainPlace (n + 1) = l
        then rotl64 (laneAt A (chainPlace n)) ((n + 1) * (n + 2) / 2) else laneAt (chainAfter A n).A l := fun l hl => by
      rw [chainAfter_succ, ← hcur, ← chainAfter_destination A]
      exact laneAt_setIfInBounds _ _ hl
    refine ⟨?_, fun i hi => ?_, fun l hl hne => ?_⟩
    · rw [← huntouched _ (chainPlace_succ_lt hn) hfresh, ← chainAfter_destination A, chainAfter_succ]
      rfl
    · rcases Nat.lt_succ_iff_lt_or_eq.1 hi with hlt | rfl
      · rw [hA _ (chainPlace_succ_lt (by omega)), if_neg (hfresh i hlt).symm, hpassed i hlt]
      · rw [hA _ (chainPlace_succ_lt hn), if_pos rfl]
    · rw [hA l hl, if_neg (hne n (Nat.lt_succ_self n)), huntouched l hl fun i hi => hne i (by omega)]

/-- The rows of R134's table are the steps of the chain. -/
theorem rhopiTable_row {r : RhopiRow} (h : r ∈ rhopiTable) : ∃ t < 24, chainPlace t = laneIndex r.sx r.sy ∧
    chainPlace (t + 1) = laneIndex r.dx r.dy ∧ (t + 1) * (t + 2) / 2 % 64 = r.n := by
  decide +revert

/-- R134: the destination lane of a row becomes its source lane, rotated. -/
theorem laneAt_rhopi_of_row (A : Cube) {r : RhopiRow} (h : r ∈ rhopiTable) :
    laneAt (rhopi A) (laneIndex r.dx r.dy) = rotl64 (laneAt A (laneIndex r.sx r.sy)) r.n := by
  obtain ⟨t, ht, hsrc, hdst, hn⟩ := rhopiTable_row h
  rw [← hsrc, ← hdst, ← hn, rotl64_mod]
  exact (chainCorrect A (Nat.le_refl 24)).passed t ht

theorem rotl64_injective (n : Nat) : Function.Injective fun v => rotl64 v n := by
  have hback : Function.LeftInverse (fun v => rotl64 v (64 - n % 64)) fun v => rotl64 v n := fun v => by
    have hsum : (n + (64 - n % 64)) % 64 = 0 := by omega
    show rotl64 (rotl64 v n) (64 - n % 64) = v
    rw [rotl64_rotl64, hsum, rotl64_zero]
  exact hback.injective

/-- Every lane but (0,0) is the source of a row. -/
theorem exists_row_of_source {l : Nat} (hl : l < 25) (h : l ≠ 0) :
    ∃ r ∈ rhopiTable, laneIndex r.sx r.sy = l := by
  decide +revert

theorem rhopi_injective : Function.Injective rhopi := by
  intro A B h
  refine cube_ext fun l hl => ?_
  by_cases hzero : l = 0
  · rw [hzero, ← laneAt_rhopi_zero A, h, laneAt_rhopi_zero]
  · obtain ⟨r, hr, rfl⟩ := exists_row_of_source hl hzero
    refine rotl64_injective r.n ?_
    show rotl64 _ _ = rotl64 _ _
    rw [← laneAt_rhopi_of_row A hr, h, laneAt_rhopi_of_row B hr]

/-! ### Chi (R136) -/

/-- Chi on three lanes that follow each other in a row. -/
def chiLane (a b c : Lane) : Lane := a ^^^ (~~~b &&& c)

theorem lane_chi (A : Cube) {x y : Nat} (hx : x < 5) (hy : y < 5) :
    lane (chi A) x y = chiLane (lane A x y) (lane A ((x + 1) % 5) y) (lane A ((x + 2) % 5) y) := by
  have hmod : ∀ k, (laneIndex x y + k) % 5 = (x + k) % 5 := fun k => by
    rw [laneIndex]
    omega
  rw [lane, chi, laneAt_cubeOf _ (laneIndex_lt hx hy), laneIndex_mod hx, laneIndex_div hx, hmod, hmod, chiLane]

/-- The lane before chi from the row after it: the five lanes of a row determine each other bit by bit. -/
theorem chiLane_undo (a b c d e : Lane) :
    chiLane a b c ^^^ (~~~(chiLane b c d) &&& (chiLane c d e ^^^ (~~~(chiLane d e a) &&& chiLane e a b))) = a := by
  have hbit : ∀ a b c d e : Bool, ((a ^^ (!b && c)) ^^ (!(b ^^ (!c && d)) &&
      ((c ^^ (!d && e)) ^^ (!(d ^^ (!e && a)) && (e ^^ (!a && b)))))) = a := by decide
  ext k
  simp only [chiLane, BitVec.getElem_xor, BitVec.getElem_and, BitVec.getElem_not]
  exact hbit ..

/-- A lane from the row that chi leaves. -/
theorem lane_eq_of_chi (A : Cube) {x y : Nat} (hx : x < 5) (hy : y < 5) :
    lane A x y = lane (chi A) x y ^^^ (~~~(lane (chi A) ((x + 1) % 5) y) &&& (lane (chi A) ((x + 2) % 5) y ^^^
      (~~~(lane (chi A) ((x + 3) % 5) y) &&& lane (chi A) ((x + 4) % 5) y))) := by
  have hmod : ∀ k, (x + k) % 5 < 5 := fun k => Nat.mod_lt _ (by decide)
  have hfive : (x + 5) % 5 = x := by omega
  have hsix : (x + 6) % 5 = (x + 1) % 5 := by omega
  rw [lane_chi A hx hy, lane_chi A (hmod 1) hy, lane_chi A (hmod 2) hy, lane_chi A (hmod 3) hy,
    lane_chi A (hmod 4) hy]
  simp only [Nat.mod_add_mod, Nat.add_assoc, Nat.reduceAdd, hfive, hsix]
  exact (chiLane_undo ..).symm

theorem laneIndex_mod_div (l : Nat) : laneIndex (l % 5) (l / 5) = l := Nat.mod_add_div l 5

theorem chi_injective : Function.Injective chi := by
  intro A B h
  refine cube_ext fun l hl => ?_
  have hx : l % 5 < 5 := Nat.mod_lt l (by decide)
  have hy : l / 5 < 5 := by omega
  rw [← laneIndex_mod_div l]
  exact (lane_eq_of_chi A hx hy).trans (h ▸ (lane_eq_of_chi B hx hy).symm)

/-! ### Iota (R163) -/

/-- The iterations of iota XOR a lane with what they make of the lane 0, whatever the lane. -/
theorem foldl_iotaStep_fst (js : List Nat) (a b : Lane) (r : Byte) :
    (js.foldl iotaStep (a ^^^ b, r)).1 = a ^^^ (js.foldl iotaStep (b, r)).1 := by
  induction js generalizing b r with
  | nil => rfl
  | cons j js ih =>
    have hstep : iotaStep (a ^^^ b, r) j = (a ^^^ (iotaStep (b, r) j).1, (iotaStep (b, r) j).2) := by
      simp only [iotaStep, BitVec.xor_assoc, apply_ite (a ^^^ ·)]
    rw [List.foldl_cons, hstep, ih, List.foldl_cons]

/-- Iota XORs a constant that depends on the LFSR alone. -/
theorem iotaLane_fst (a : Lane) (r : Byte) : (iotaLane a r).1 = a ^^^ (iotaLane 0#64 r).1 := by
  have h := foldl_iotaStep_fst (List.range 7) a 0#64 r
  rwa [BitVec.xor_zero] at h

theorem laneAt_iota (A : Cube) (r : Byte) {l : Nat} (hl : l < 25) :
    laneAt (iota A r).1 l = if 0 = l then laneAt A 0 ^^^ (iotaLane 0#64 r).1 else laneAt A l := by
  rw [← iotaLane_fst]
  exact laneAt_setIfInBounds _ _ hl

theorem iota_injective (r : Byte) : Function.Injective fun A => (iota A r).1 := by
  intro A B h
  refine cube_ext fun l hl => ?_
  have hlane : laneAt (iota A r).1 l = laneAt (iota B r).1 l := congrArg (laneAt · l) h
  rw [laneAt_iota A r hl, laneAt_iota B r hl] at hlane
  by_cases hzero : 0 = l
  · rwa [if_pos hzero, if_pos hzero, BitVec.xor_left_inj, hzero] at hlane
  · rwa [if_neg hzero, if_neg hzero] at hlane

/-! ### The round and the permutation (R138, R140, R143) -/

theorem roundStep_injective (r : Byte) : Function.Injective fun A => (roundStep (A, r)).1 :=
  (iota_injective r).comp (chi_injective.comp (rhopi_injective.comp theta_injective))

theorem rounds_injective (n : Nat) (r : Byte) : Function.Injective fun A => (rounds n (A, r)).1 := by
  induction n generalizing r with
  | zero => exact Function.injective_id
  | succ n ih =>
    have hsplit : ∀ A, rounds (n + 1) (A, r) = rounds n ((roundStep (A, r)).1, lfsrStep^[7] r) := fun A => by
      rw [rounds, ← roundStep_snd (A, r)]
    simp only [hsplit]
    exact (ih (lfsrStep^[7] r)).comp (roundStep_injective r)

/-- There are finitely many arrays: 25 lanes of 64 bits make one up. -/
theorem cube_finite : Finite Cube :=
  Finite.of_injective (fun (A : Cube) (l : Fin 25) => laneAt A l) fun _ _ h =>
    cube_ext fun l hl => congrFun h ⟨l, hl⟩

end Sys2Proof.Machine

/-! ### The obligations -/

open Sys2Proof Sys2Proof.Machine

/-- Settles O39: the parities of the state are those of its array. -/
theorem thetaResult : Obligations.ThetaResult := by
  intro s h
  obtain ⟨u, hu, hcube, hR, hout, hkept, ho⟩ := execTheta_leaves h
  refine ⟨u, hu, fun P hP x y hx hy => ?_, hout, hR, hkept, ho⟩
  have hparity : ∀ k, P ((x + k) % 5) = parity s.cube ((x + k) % 5) := fun k => by
    have hk : (x + k) % 5 < 5 := Nat.mod_lt _ (by decide)
    rw [hP _ hk, parity, lane_cube s hk (by decide), lane_cube s hk (by decide), lane_cube s hk (by decide),
      lane_cube s hk (by decide), lane_cube s hk (by decide)]
  rw [← lane_cube u hx hy, hcube, lane_theta _ hx hy, lane_cube s hx hy, thetaMask, hparity, hparity]

/-- Settles O40: each row is a step of the chain, and RHOPI's footprint leaves lane (0,0) out. -/
theorem rhopiFollowsItsTable : Obligations.RhopiFollowsItsTable := by
  intro s h
  obtain ⟨u, hu, hcube, hR, -, hkept, ho⟩ := execRhopi_leaves h
  have hout : SameOutside s u 8 192 := commandsWriteOnlyTheirFootprint _ _ _ hu
  have hplaces : ∀ r ∈ rhopiTable, laneIndex r.dx r.dy < 25 ∧ laneIndex r.sx r.sy < 25 := by decide
  refine ⟨u, hu, fun r hr => ?_, ?_, hout, hR, hkept, ho⟩
  · obtain ⟨hdst, hsrc⟩ := hplaces r hr
    rw [← laneAt_cube u hdst, ← laneAt_cube s hsrc, hcube, laneAt_rhopi_of_row _ hr]
  · rw [← lane_cube u (by decide) (by decide), ← lane_cube s (by decide) (by decide), hcube]
    exact laneAt_rhopi_zero _

/-- Settles O41: the row before the step is that of the state's array. -/
theorem chiResult : Obligations.ChiResult := by
  intro s h
  obtain ⟨u, hu, hcube, hR, hout, hkept, ho⟩ := execChi_leaves h
  refine ⟨u, hu, fun i j hi hj => ?_, hout, hR, hkept, ho⟩
  have hmod : ∀ k, (i + k) % 5 < 5 := fun k => Nat.mod_lt _ (by decide)
  rw [← lane_cube u hi hj, hcube, lane_chi _ hi hj, lane_cube s hi hj, lane_cube s (hmod 1) hj,
    lane_cube s (hmod 2) hj, chiLane]

/-- Settles O47: the four commands leave the array and the LFSR value of one round, as ROUND does. -/
theorem roundIsItsFourSteps : Obligations.RoundIsItsFourSteps := by
  intro s h
  obtain ⟨u, hu, hround⟩ := execRound_leaves h
  obtain ⟨u₁, u₂, u₃, u₄, he₁, he₂, he₃, he₄, hsteps⟩ := exec_four_steps_leaves (s := s) h
  have hR : u.R = u₄.R := hround.R_eq.trans hsteps.R_eq.symm
  exact ⟨u, hu, ⟨u₁, u₂, u₃, u₄, he₁, he₂, he₃, he₄, hsteps.sameBytes hround, hR⟩,
    hround.R_eq.trans (roundStep_snd _), hround.sameOutside, hround.kept, hround.output_eq⟩

/-- Settles O48: RCINIT leaves the seed, from which 24 ROUND come to the array and the LFSR value of `permute`. -/
theorem permuteIsRcinitAndTwentyFourRounds : Obligations.PermuteIsRcinitAndTwentyFourRounds := by
  intro s h
  obtain ⟨u, hu, hperm⟩ := execPermute_leaves h
  obtain ⟨v, hv, hseed⟩ := execRcinit_leaves (s := s) h
  obtain ⟨w, hw, hrounds⟩ := execTimes_round_leaves 24 hseed (hseed.ready h rfl rfl)
  exact ⟨u, hu, hperm.R_eq.trans (permute_snd _),
    ⟨v, w, hv, hw, hrounds.sameBytes hperm, hrounds.R_eq.trans hperm.R_eq.symm⟩,
    hperm.sameOutside, hperm.kept, hperm.output_eq⟩

/-- Settles O49: PERMUTE starts from the seed, so what it leaves is a function of the array alone. -/
theorem permuteDependsOnTheBytesAlone : Obligations.PermuteDependsOnTheBytesAlone := by
  intro s t hs ht hbytes
  obtain ⟨u, hu, hsu⟩ := execPermute_leaves hs
  obtain ⟨v, hv, htv⟩ := execPermute_leaves ht
  have hcube : s.cube = t.cube := cube_eq_iff.2 hbytes
  exact ⟨u, v, hu, hv, by rw [hsu.R_eq, htv.R_eq, hcube], cube_eq_iff.1 (by rw [hsu.cube_eq, htv.cube_eq, hcube])⟩

/-- Settles O50: none of the four steps loses information, and an injective map of a finite set is a bijection. -/
theorem permuteIsABijection : Obligations.PermuteIsABijection :=
  have := cube_finite
  Finite.injective_iff_bijective.1 (rounds_injective 24 0x01#8)

/-- Settles O51: the three commands move the payload's array in, through `permute`, and out. -/
theorem loadPermuteStoreIsPermute : Obligations.LoadPermuteStoreIsPermute := by
  intro s p hE hp
  obtain ⟨s₁, he₁, h₁⟩ := execLds_leaves (s := { s with payload := p }) ⟨hE, rfl, hp⟩
  have hready : Ready .permute { s₁ with payload := [] } := ⟨h₁.kept.1.trans hE, rfl, rfl⟩
  obtain ⟨s₂, he₂, h₂⟩ := execPermute_leaves hready
  refine ⟨s₁, s₂, _, he₁, he₂, execSts_ready (h₂.ready hready rfl rfl), ?_⟩
  have hcube : State.cube { s₁ with payload := [] } = unflatten p := h₁.cube_eq
  rw [withEffect_output, ← flatten_cube, h₂.cube_eq, hcube]
end

section
/-! PROOFS of family 42_round_constants.md, first the facts they share: the bits of the constant that iota XORs into
lane (0,0) (R163), the period of the advance (R162), and how the rows of R166's table follow each other. -/
namespace Sys2Proof.Machine

/-! ### The bits of a round constant (R163) -/

/-- Iteration `j` of iota, run from the LFSR value `r`, flips bit `k`. -/
def iotaFlips (r : Byte) (k j : Nat) : Bool := decide (k = 2 ^ j - 1) && (lfsrStep^[j + 1] r).getLsbD 1

/-- No bit is flipped twice. -/
theorem iotaFlips_unique {r : Byte} {k i j : Nat} (hi : iotaFlips r k i = true) (hj : iotaFlips r k j = true) :
    i = j := by
  simp only [iotaFlips, Bool.and_eq_true, decide_eq_true_eq] at hi hj
  have hi' := Nat.two_pow_pos i
  have hj' := Nat.two_pow_pos j
  exact Nat.pow_right_injective (Nat.le_refl 2) (by omega : 2 ^ i = 2 ^ j)

/-- So it is flipped by one of `n + 1` iterations when the first `n` flip it or else the last one does. -/
theorem any_iotaFlips_succ (r : Byte) (k n : Nat) : (List.range (n + 1)).any (iotaFlips r k) =
    ((List.range n).any (iotaFlips r k) ^^ iotaFlips r k n) := by
  have hone : iotaFlips r k n = true → (List.range n).any (iotaFlips r k) = false := fun hn =>
    List.any_eq_false.2 fun i hi hflip => Nat.ne_of_lt (List.mem_range.1 hi) (iotaFlips_unique hflip hn)
  rw [List.range_succ, List.any_append, List.any_cons, List.any_nil, Bool.or_false]
  cases hn : iotaFlips r k n
  · rw [Bool.or_false, Bool.xor_false]
  · rw [hone hn, Bool.false_or, Bool.false_xor]

/-- The tap is bit 1. -/
theorem and_lfsrTap_ne_zero_iff (r : Byte) : r &&& Config.lfsrTap ≠ 0#8 ↔ r.getLsbD 1 = true := by
  decide +revert

theorem getLsbD_iotaStep (c : Lane × Byte) (j : Nat) {k : Nat} (hk : k < 64) :
    (iotaStep c j).1.getLsbD k = (c.1.getLsbD k ^^ (decide (k = 2 ^ j - 1) && (lfsrStep c.2).getLsbD 1)) := by
  have hmask : (1#64 <<< (2 ^ j - 1)).getLsbD k = decide (k = 2 ^ j - 1) := by
    show (BitVec.twoPow 64 (2 ^ j - 1)).getLsbD k = _
    rw [BitVec.getLsbD_twoPow, ← Bool.decide_and]
    exact decide_eq_decide.2 (by omega)
  simp only [iotaStep, and_lfsrTap_ne_zero_iff]
  split
  next htap => rw [BitVec.getLsbD_xor, hmask, htap, Bool.and_true]
  next htap => rw [Bool.eq_false_iff.2 htap, Bool.and_false, Bool.xor_false]

/-- The bits that `n` iterations set in the lane 0. -/
theorem getLsbD_foldl_iotaStep (r : Byte) (n : Nat) {k : Nat} (hk : k < 64) :
    ((List.range n).foldl iotaStep (0#64, r)).1.getLsbD k = (List.range n).any (iotaFlips r k) := by
  induction n with
  | zero => exact BitVec.getLsbD_zero
  | succ n ih =>
    rw [any_iotaFlips_succ, List.range_succ, List.foldl_concat, getLsbD_iotaStep _ _ hk, ih, foldl_iotaStep_snd,
      List.length_range, ← Function.iterate_succ_apply' lfsrStep, iotaFlips]

/-! ### The advance (R160, R162) -/

/-- The top bit of `R` selects whether the advance XORs the polynomial. -/
theorem lfsrStep_eq_ite (r : Byte) :
    lfsrStep r = if r.toNat < 0x80 then r <<< 1 else r <<< 1 ^^^ Config.lfsrPoly := by
  have htop : (r >>> 7).toNat = r.toNat / 128 := by
    rw [BitVec.toNat_ushiftRight, Nat.shiftRight_eq_div_pow]
  have hr := r.isLt
  split
  · have hzero : r >>> 7 = 0#8 := BitVec.eq_of_toNat_eq (by rw [htop, BitVec.toNat_ofNat]; omega)
    rw [lfsrStep, hzero, BitVec.zero_mul, BitVec.xor_zero]
  · have hone : r >>> 7 = 1#8 := BitVec.eq_of_toNat_eq (by rw [htop, BitVec.toNat_ofNat]; omega)
    rw [lfsrStep, hone, BitVec.one_mul]

/-- Of the divisors of 255 only 255 itself brings the seed back. -/
theorem minimalPeriod_lfsrStep_seed : Function.minimalPeriod lfsrStep 0x01#8 = 255 := by
  have hback : lfsrStep^[255] 0x01#8 = 0x01#8 := by decide +kernel
  have hdivisors : ∀ d ∈ Nat.divisors 255, lfsrStep^[d] 0x01#8 = 0x01#8 → d = 255 := by decide +kernel
  have hdvd : Function.minimalPeriod lfsrStep 0x01#8 ∣ 255 := Function.IsPeriodicPt.minimalPeriod_dvd hback
  exact hdivisors _ (Nat.mem_divisors.2 ⟨hdvd, by decide⟩) Function.iterate_minimalPeriod

/-- The 255 values that the seed runs through are distinct and not 0x00, so they are all that there are. -/
theorem exists_iterate_lfsrStep_seed {r : Byte} (h : r ≠ 0x00#8) : ∃ k < 255, lfsrStep^[k] 0x01#8 = r := by
  have hinj : Set.InjOn (lfsrStep^[·] 0x01#8) (Finset.range 255) := by
    rw [Finset.coe_range, ← minimalPeriod_lfsrStep_seed]
    exact Function.iterate_injOn_Iio_minimalPeriod
  have hsub : (Finset.range 255).image (lfsrStep^[·] 0x01#8) ⊆ Finset.univ.erase 0x00#8 := by
    refine Finset.image_subset_iff.2 fun k _ => ?_
    exact Finset.mem_erase.2 ⟨lfsrStep_iterate_ne_zero k (by decide), Finset.mem_univ _⟩
  have hcard : (Finset.univ.erase 0x00#8).card ≤ ((Finset.range 255).image (lfsrStep^[·] 0x01#8)).card := by
    rw [Finset.card_image_of_injOn hinj, Finset.card_range, Finset.card_erase_of_mem (Finset.mem_univ _),
      Finset.card_univ, Fintype.card_congr BitVec.equivFin.toEquiv, Fintype.card_fin]
    decide
  have hall := Finset.eq_of_subset_of_card_le hsub hcard
  have hmem : r ∈ (Finset.range 255).image (lfsrStep^[·] 0x01#8) := by
    rw [hall]
    exact Finset.mem_erase.2 ⟨h, Finset.mem_univ r⟩
  simpa using hmem

theorem minimalPeriod_lfsrStep {r : Byte} (h : r ≠ 0x00#8) : Function.minimalPeriod lfsrStep r = 255 := by
  obtain ⟨k, -, rfl⟩ := exists_iterate_lfsrStep_seed h
  have hseed : 0x01#8 ∈ Function.periodicPts lfsrStep :=
    Function.minimalPeriod_pos_iff_mem_periodicPts.1 (by rw [minimalPeriod_lfsrStep_seed]; decide)
  rw [Function.minimalPeriod_apply_iterate hseed, minimalPeriod_lfsrStep_seed]

theorem lfsrStep_zero : lfsrStep 0x00#8 = 0x00#8 := by decide

/-- 255 advances bring every value back, 0x00 included. -/
theorem lfsrStep_iterate_255 (r : Byte) : lfsrStep^[255] r = r := by
  by_cases h : r = 0x00#8
  · rw [h, Function.iterate_fixed lfsrStep_zero]
  · rw [← minimalPeriod_lfsrStep h, Function.iterate_minimalPeriod]

/-- 254 more advances undo one. -/
theorem lfsrStep_bijective : Function.Bijective lfsrStep :=
  Function.bijective_iff_has_inverse.2
    ⟨lfsrStep^[254], fun r => (Function.iterate_succ_apply lfsrStep 254 r).symm.trans (lfsrStep_iterate_255 r),
      fun r => (Function.iterate_succ_apply' lfsrStep 254 r).symm.trans (lfsrStep_iterate_255 r)⟩

/-! ### The rows of the table (R166) -/

theorem iotaLane_of_row : ∀ r ∈ roundConstantTable, iotaLane 0#64 r.before = (r.rc, r.after) := by decide

/-- Each row but the first starts with the LFSR value that the row before it ends with. -/
theorem before_succ_row : ∀ k (hk : k < roundConstantTable.length - 1),
    roundConstantTable[k + 1].before = roundConstantTable[k].after := by
  decide

/-- Row `k` starts with the LFSR value that `k` rounds from the seed leave. -/
theorem before_row {k : Nat} (hk : k < roundConstantTable.length) :
    roundConstantTable[k].before = lfsrStep^[7 * k] 0x01#8 := by
  induction k with
  | zero => rfl
  | succ k ih =>
    have hiota := iotaLane_of_row _ (List.getElem_mem (Nat.lt_of_succ_lt hk))
    calc roundConstantTable[k + 1].before
        = (iotaLane 0#64 roundConstantTable[k].before).2 := by rw [hiota, before_succ_row k (Nat.lt_sub_of_add_lt hk)]
      _ = lfsrStep^[7] (lfsrStep^[7 * k] 0x01#8) := by rw [iotaLane_snd, ih]
      _ = lfsrStep^[7 * (k + 1)] 0x01#8 := by rw [← Function.iterate_add_apply, Nat.mul_succ, Nat.add_comm]

end Sys2Proof.Machine

/-! ### The obligations -/

open Sys2Proof Sys2Proof.Machine

/-- Settles O42: IOTA XORs the round constant into lane (0,0), and bit `k` of that is set when an iteration flips it. -/
theorem iotaResult : Obligations.IotaResult := by
  intro s h
  obtain ⟨u, hu, hcube, hR, -, hkept, ho⟩ := execIota_leaves h
  have hlane : laneOf u 0 = laneOf s 0 ^^^ (iotaLane 0#64 s.R).1 := by
    rw [← laneAt_cube u (by decide), hcube, laneAt_iota _ _ (by decide), if_pos rfl, laneAt_cube s (by decide)]
  refine ⟨u, hu, fun k hk => ?_, hR.trans (iotaLane_snd _ _), commandsWriteOnlyTheirFootprint _ _ _ hu, hkept, ho⟩
  rw [hlane, BitVec.getLsbD_xor]
  exact congrArg _ (getLsbD_foldl_iotaStep s.R 7 hk)

/-- Settles O43: RCINIT writes the seed to `R` and hands `S` back. -/
theorem rcinitResult : Obligations.RcinitResult :=
  fun _ h => ⟨_, execRcinit_ready h, rfl, fun _ => rfl, kept_withEffect .., rfl⟩

/-- Settles O44: doubling is the shift, and the top bit tells the two cases apart. -/
theorem lfsrAdvanceByCases : Obligations.LfsrAdvanceByCases := by
  intro r
  have hdouble : (r <<< 1).toNat = 2 * r.toNat % 256 := by
    rw [BitVec.toNat_shiftLeft, Nat.shiftLeft_eq, Nat.mul_comm]
  rw [lfsrStep_eq_ite]
  split
  · rw [hdouble]
    omega
  · rw [BitVec.toNat_xor, hdouble]
    rfl

/-- Settles O45: every value but 0x00 is on the cycle of the seed, whose length is 255. -/
theorem lfsrIsOneCycleOf255 : Obligations.LfsrIsOneCycleOf255 := by
  refine ⟨lfsrStep_bijective, lfsrStep_zero, fun r hr => ⟨lfsrStep_iterate_255 r, fun n hpos hlt => ?_⟩⟩
  have hn : n < Function.minimalPeriod lfsrStep r := by rwa [minimalPeriod_lfsrStep hr]
  exact Function.not_isPeriodicPt_of_pos_of_lt_minimalPeriod (Nat.pos_iff_ne_zero.1 hpos) hn

/-- Settles O46: the first column is carried from row to row, and iota computes the other two from it. -/
theorem roundConstantsFollowTheirTable : Obligations.RoundConstantsFollowTheirTable := by
  intro k _ r hr
  obtain ⟨hk, rfl⟩ := List.getElem?_eq_some_iff.1 hr
  exact ⟨before_row hk, iotaLane_of_row _ (List.getElem_mem hk)⟩
end

section
/-! PROOFS of family 43_sponge.md, first the facts they share: what INIT, ABSORB and SQUEEZE leave in `S` (R180, R190,
R192), the bytes that padding adds and the pieces it makes (R197, R198), and a run of the digest protocol event by event
(R201). -/
namespace Sys2Proof.Machine

/-! ### State and block movement (R180, R190, R192) -/

theorem Memory.take_readBytes (m : List Host.Cell) (addr : Nat) {k n : Nat} (h : k ≤ n) :
    (readBytes m addr n).take k = readBytes m addr k := by
  rw [readBytes, ← List.map_take, List.take_range, Nat.min_eq_left h, readBytes]

theorem Memory.readBytes_nil (addr n : Nat) : readBytes [] addr n = List.replicate n 0x00#8 := by
  simp [readBytes]

theorem LeavesCube.readBytes_eq {s u : State} {A : Cube} {r : Byte} (h : LeavesCube s u A r) :
    Memory.readBytes u.S 0 200 = flatten A := by
  rw [← flatten_cube, h.cube_eq]

section
variable {s : State}

/-- INIT leaves the array of 200 zero bytes. -/
theorem execInit_leaves (h : Ready .init s) :
    ∃ u, exec .init s = .next u ∧ LeavesCube s u (unflatten (List.replicate 200 0x00#8)) s.R := by
  refine ⟨_, execInit_ready h, ?_⟩
  have hleaves := LeavesCube.of_writeBytes_flatten s (unflatten (List.replicate 200 0x00#8)) s.R
  rwa [flatten_unflatten List.length_replicate] at hleaves

/-- ABSORB leaves the permutation of the bytes with the block XORed in. -/
theorem execAbsorb_leaves (h : Ready .absorb s) : ∃ u, exec .absorb s = .next u ∧
    LeavesCube s u (permute (unflatten (xorN (Memory.readBytes s.S 0 200) s.payload 136))).1 0x8E#8 := by
  rw [← permute_snd (unflatten (xorN (Memory.readBytes s.S 0 200) s.payload 136))]
  exact ⟨_, execAbsorb_ready h, .of_writeBytes_flatten ..⟩

/-- SQUEEZE is PERMUTE with the first 136 bytes, read before it, as the output. -/
theorem execSqueeze_emits (h : Ready .squeeze s) : ∃ u, exec .permute s = .next u ∧
    LeavesCube s u (permute s.cube).1 0x8E#8 ∧ exec .squeeze s = .next (emit (Memory.readBytes s.S 0 136) u) := by
  have hperm := execPermute_ready (s := s) h
  rw [← permute_snd s.cube]
  exact ⟨_, hperm, .of_writeBytes_flatten .., execSqueeze_ready h⟩

/-- The bytes that ABSORB permutes, one by one. -/
theorem readBytes_eq_xorN {v : State} {p : List Byte} (hp : p.length = 136)
    (hrate : ∀ a, a < 136 → Memory.read v.S a = Memory.read s.S a ^^^ p.getD a 0#8)
    (hcapacity : ∀ a, 136 ≤ a → a < 200 → Memory.read v.S a = Memory.read s.S a) :
    Memory.readBytes v.S 0 200 = xorN (Memory.readBytes s.S 0 200) p 136 := by
  have hlen : (Memory.readBytes s.S 0 200).length = 200 := Memory.length_readBytes ..
  have hxor : (xorN (Memory.readBytes s.S 0 200) p 136).length = 200 :=
    (length_xorN (by omega) (by omega)).trans hlen
  refine List.ext_getElem ((Memory.length_readBytes ..).trans hxor.symm) fun a ha ha' => ?_
  have hget : (Memory.readBytes s.S 0 200).getD a 0#8 = Memory.read s.S a := by
    rw [← List.getElem_eq_getD (h := by omega), Memory.getElem_readBytes, Nat.zero_add]
  rw [Memory.getElem_readBytes, Nat.zero_add, List.getElem_eq_getD 0#8,
    getD_xorN (by omega) (by omega) (by omega), hget]
  split
  · exact hrate a ‹_›
  · exact hcapacity a (by omega) (by omega)

end

/-! ### Padding and blocks (R197, R198) -/

theorem paddedLength_eq (n : Nat) : paddedLength n = n + (135 - n % 136 + 1) := by
  have hdef : paddedLength n = (n / 136 + 1) * 136 := rfl
  omega

/-- A change at a place past the first part is a change in the second part. -/
theorem modify_append_add {α : Type} (f : α → α) (l l' : List α) (i : Nat) :
    (l ++ l').modify (l.length + i) f = l ++ l'.modify i f :=
  List.modifyTailIdx_add (List.modifyHead f) i l l'

theorem modify_append_length {α : Type} (f : α → α) (l l' : List α) :
    (l ++ l').modify l.length f = l ++ l'.modify 0 f :=
  modify_append_add f l l' 0

/-- The two marks in `k + 1` zero bytes: they fall into one byte when there is no other. -/
theorem modify_marks (k : Nat) :
    ((List.replicate (k + 1) 0x00#8).modify 0 (· ^^^ Config.padFirst)).modify k (· ^^^ Config.padLast) =
      if k = 0 then [0x86#8] else 0x06#8 :: (List.replicate (k - 1) 0x00#8 ++ [0x80#8]) := by
  cases k with
  | zero => decide
  | succ j =>
    have hlast := modify_append_length (· ^^^ Config.padLast) (List.replicate j 0x00#8) [0x00#8]
    rw [List.length_replicate, ← List.replicate_succ', List.modify_zero_cons] at hlast
    rw [List.replicate_succ, List.modify_zero_cons, List.modify_succ_cons, hlast, if_neg (Nat.succ_ne_zero j)]
    rfl

theorem pad_eq (M : List Byte) : pad M = M ++ (if M.length % 136 = 135 then [0x86#8]
    else 0x06#8 :: (List.replicate (134 - M.length % 136) 0x00#8 ++ [0x80#8])) := by
  have hone : 135 - M.length % 136 = 0 ↔ M.length % 136 = 135 := by omega
  rw [pad, paddedLength_eq, Nat.add_sub_cancel_left, ← Nat.add_assoc, Nat.add_sub_cancel,
    modify_append_length, modify_append_add, modify_marks]
  simp only [hone, Nat.sub_right_comm]

@[simp] theorem length_pad (M : List Byte) : (pad M).length = (M.length / 136 + 1) * 136 := by
  rw [pad, List.length_modify, List.length_modify, List.length_append, List.length_replicate, paddedLength_eq]
  omega

theorem length_blocks (P : List Byte) : (blocks P).length = P.length / 136 := by
  rw [blocks, List.length_map, List.length_range]

theorem length_of_mem_blocks {P b : List Byte} (hb : b ∈ blocks P) : b.length = 136 := by
  obtain ⟨k, hk, rfl⟩ := List.mem_map.1 hb
  have hlt : k < P.length / 136 := List.mem_range.1 hk
  simp only [List.length_take, List.length_drop, Config.rateBytes]
  omega

/-- Whole blocks make up a sequence in order. -/
theorem flatten_blocks {P : List Byte} (h : 136 ∣ P.length) : (blocks P).flatten = P := by
  rw [blocks, ← List.flatMap_def, flatMap_range_take_drop, Nat.mul_div_cancel' h, List.take_length]

/-! ### A run of the digest protocol (R201) -/

theorem step_of_exec {s u : State} {i : Instr} {p : List Byte} {rest : List HostEvent}
    (hpend : s.pending = .command (encode i) p :: rest)
    (hexec : exec i (present p { s with pending := rest }) = .next u) : step s = .next (answerOutput u) := by
  rw [step_of_command hpend, transaction_of_decode_ok (decode_eq_ok_iff.2 rfl), hexec, complete]

theorem run_succ_of_step {C : Host.Core} {s t : C.State} (n : Nat) (h : C.step s = .next t) :
    C.run (n + 1) s = C.run n t := by
  rw [Host.Core.run, h]

theorem core_run_succ_of_step {s t : State} (n : Nat) (h : step s = .next t) :
    Sys2Proof.core.run (n + 1) s = Sys2Proof.core.run n t :=
  run_succ_of_step (C := Sys2Proof.core) n h

theorem runOutput_answerOutput (u : State) : runOutput (answerOutput u) = runOutput u ++ u.output := by
  simp [runOutput, answerBytes]

/-- In the middle of a run without a fault: the events `es` are still to come, `S` holds the bytes `b`, and the outputs
so far are `o`. -/
structure Running (s : State) (es : List HostEvent) (b o : List Byte) : Prop where
  ERR_eq : s.ERR = false
  pending_eq : s.pending = es
  readBytes_eq : Memory.readBytes s.S 0 200 = b
  runOutput_eq : runOutput s = o

namespace Running

variable {s u : State} {i : Instr} {p b b' o : List Byte} {es : List HostEvent}

/-- The next command of a run finds what it needs, if its payload has the right length. -/
theorem ready (h : Running s (.command (encode i) p :: es) b o) (hi : i.wf = true) (hp : p.length = payloadBytes i) :
    Ready i (present p { s with pending := es }) :=
  ⟨h.ERR_eq, hi, hp⟩

/-- A command that keeps what is not its own carries a run on. -/
theorem answer (h : Running s (.command (encode i) p :: es) b o)
    (hkept : Kept (present p { s with pending := es }) u) (hb : Memory.readBytes u.S 0 200 = b') :
    Running (answerOutput u) es b' (o ++ u.output) := by
  obtain ⟨hE, -, -, hpend, hans⟩ := hkept
  refine ⟨hE.trans h.ERR_eq, hpend, hb, ?_⟩
  rw [runOutput_answerOutput, runOutput, hans, ← h.runOutput_eq]
  rfl

theorem step_init (h : Running s (.command (encode .init) [] :: es) b o) :
    ∃ t, step s = .next t ∧ Running t es (List.replicate 200 0x00#8) o := by
  obtain ⟨u, hu, hleaves⟩ := execInit_leaves (h.ready rfl rfl)
  have hrun := h.answer hleaves.kept hleaves.readBytes_eq
  rw [flatten_unflatten List.length_replicate, hleaves.output_eq, List.append_nil] at hrun
  exact ⟨_, step_of_exec h.pending_eq hu, hrun⟩

theorem step_absorb (h : Running s (.command (encode .absorb) p :: es) b o) (hp : p.length = 136) :
    ∃ t, step s = .next t ∧ Running t es (absorbBytes b p) o := by
  obtain ⟨u, hu, hleaves⟩ := execAbsorb_leaves (h.ready rfl hp)
  have hrun := h.answer hleaves.kept hleaves.readBytes_eq
  rw [present_S, h.readBytes_eq, hleaves.output_eq, List.append_nil] at hrun
  exact ⟨_, step_of_exec h.pending_eq hu, hrun⟩

theorem step_squeeze (h : Running s (.command (encode .squeeze) [] :: es) b o) :
    ∃ t, step s = .next t ∧ Running t es (flatten (permute (unflatten b)).1) (o ++ b.take 136) ∧ t.R = 0x8E#8 := by
  obtain ⟨u, -, hleaves, hu⟩ := execSqueeze_emits (h.ready rfl rfl)
  have hrate : Memory.readBytes s.S 0 136 = b.take 136 := by
    rw [← h.readBytes_eq, Memory.take_readBytes s.S 0 (by decide)]
  have hrun := h.answer (u := emit (b.take 136) u) hleaves.kept hleaves.readBytes_eq
  rw [State.cube, present_S, h.readBytes_eq, emit_output, hleaves.output_eq, List.nil_append] at hrun
  rw [present_S, hrate] at hu
  exact ⟨_, step_of_exec h.pending_eq hu, hrun, hleaves.R_eq⟩

/-- One ABSORB a block folds the blocks into `S`. -/
theorem run_absorb (bs : List (List Byte)) (n : Nat) (hbs : ∀ p ∈ bs, p.length = 136)
    (h : Running s (bs.map (fun p => .command (encode .absorb) p) ++ es) b o) :
    ∃ t, Sys2Proof.core.run (bs.length + n) s = Sys2Proof.core.run n t ∧ Running t es (bs.foldl absorbBytes b) o := by
  induction bs generalizing s b with
  | nil => exact ⟨s, by rw [List.length_nil, Nat.zero_add], h⟩
  | cons p bs ih =>
    rw [List.forall_mem_cons] at hbs
    obtain ⟨s', hs', h'⟩ := h.step_absorb hbs.1
    obtain ⟨t, ht, hrun⟩ := ih hbs.2 h'
    refine ⟨t, ?_, hrun⟩
    rw [List.length_cons, Nat.add_right_comm, core_run_succ_of_step _ hs', ht]

end Running

/-- Any state with `ERR = 0` can start a run. -/
theorem running_start {s : State} (hE : s.ERR = false) (es : List HostEvent) :
    Running { s with pending := es, answers := [] } es (Memory.readBytes s.S 0 200) [] :=
  ⟨hE, rfl, rfl, rfl⟩

/-- The run of DIGEST(M): the absorbed bytes `b`, permuted once more, with the rate part of `b` as the output. -/
theorem runEvents_digestProgram (M : List Byte) {s : State} (hE : s.ERR = false) {b : List Byte}
    (hb : (blocks (pad M)).foldl absorbBytes (List.replicate 200 0x00#8) = b) :
    ∃ t, runEvents (digestProgram M) s = .next t ∧ Running t [] (flatten (permute (unflatten b)).1) (b.take 136) ∧
      t.R = 0x8E#8 ∧ b.length = 200 := by
  obtain ⟨s₁, he₁, h₁⟩ := (running_start hE (digestProgram M)).step_init
  obtain ⟨s₂, he₂, h₂⟩ := h₁.run_absorb (blocks (pad M)) 1 fun _ => length_of_mem_blocks
  obtain ⟨t, he₃, h₃, hR⟩ := h₂.step_squeeze
  rw [hb] at h₂ h₃
  refine ⟨t, ?_, h₃, hR, by rw [← h₂.readBytes_eq, Memory.length_readBytes]⟩
  have hlen : (digestProgram M).length = (blocks (pad M)).length + 1 + 1 := by simp [digestProgram]
  rw [runEvents, hlen, core_run_succ_of_step _ he₁, he₂, core_run_succ_of_step 0 he₃]
  rfl

end Sys2Proof.Machine

/-! ### The obligations -/

open Sys2Proof Sys2Proof.Machine

/-- Settles O52: the 200 zero bytes that INIT writes are read back. -/
theorem initResult : Obligations.InitResult := by
  intro s h
  obtain ⟨u, hu, hleaves⟩ := execInit_leaves h
  have hbytes : Memory.readBytes u.S 0 200 = Memory.readBytes [] 0 200 := by
    rw [hleaves.readBytes_eq, flatten_unflatten List.length_replicate, Memory.readBytes_nil]
  exact ⟨u, hu, fun a ha => Memory.read_eq_of_readBytes_eq hbytes (Nat.zero_le a) (by omega),
    hleaves.sameOutside, hleaves.R_eq, hleaves.kept, hleaves.output_eq⟩

/-- Settles O53: the payload that LDS writes is read back. -/
theorem ldsResult : Obligations.LdsResult := by
  intro s h
  obtain ⟨u, hu, hleaves⟩ := execLds_leaves h
  obtain ⟨-, -, hp⟩ := h
  exact ⟨u, hu, by rw [hleaves.readBytes_eq, flatten_unflatten hp],
    hleaves.sameOutside, hleaves.R_eq, hleaves.kept, hleaves.output_eq⟩

/-- Settles O54: STS emits the 200 bytes and writes nothing. -/
theorem stsResult : Obligations.StsResult :=
  fun _ h => ⟨_, execSts_ready h, rfl, fun _ => rfl, rfl, kept_withEffect ..⟩

/-- Settles O55: such a state holds the very bytes that ABSORB permutes. -/
theorem absorbXorsTheBlockAndPermutes : Obligations.AbsorbXorsTheBlockAndPermutes := by
  intro s h
  obtain ⟨u, hu, hleaves⟩ := execAbsorb_leaves h
  obtain ⟨-, -, hp⟩ := h
  refine ⟨u, hu, hleaves.R_eq, fun v hv hrate hcapacity => ?_, hleaves.sameOutside, hleaves.kept, hleaves.output_eq⟩
  obtain ⟨v', hv', hperm⟩ := execPermute_leaves hv
  refine ⟨v', hv', cube_eq_iff.1 ?_⟩
  rw [hleaves.cube_eq, hperm.cube_eq, State.cube, readBytes_eq_xorN hp hrate hcapacity]

/-- Settles O56: SQUEEZE leaves what PERMUTE leaves, with an output. -/
theorem squeezeEmitsTheRateAndPermutes : Obligations.SqueezeEmitsTheRateAndPermutes := by
  intro s h
  obtain ⟨u, hu, hleaves, hsqueeze⟩ := execSqueeze_emits h
  exact ⟨_, hsqueeze, by rw [emit_output, hleaves.output_eq, List.nil_append], hleaves.R_eq,
    ⟨u, hu, fun _ => rfl⟩, hleaves.sameOutside, hleaves.kept⟩

/-- Settles O57: the output is a function of the first 136 bytes. -/
theorem squeezeOutputHidesTheCapacity : Obligations.SqueezeOutputHidesTheCapacity := by
  intro s t hs ht hrate
  obtain ⟨u, hu, hout, -⟩ := squeezeEmitsTheRateAndPermutes s hs
  obtain ⟨v, hv, hout', -⟩ := squeezeEmitsTheRateAndPermutes t ht
  refine ⟨u, v, hu, hv, ?_⟩
  rw [hout, hout']
  exact Memory.readBytes_congr fun a _ ha => hrate a (by omega)

/-- Settles O58: the two marks stand at the ends of what zero-filling adds. -/
theorem paddedMessage : Obligations.PaddedMessage := fun M => ⟨length_pad M, pad_eq M⟩

/-- Settles O59: the padded length is a multiple of 136. -/
theorem blocksOfThePaddedMessage : Obligations.BlocksOfThePaddedMessage := by
  intro M
  refine ⟨?_, fun _ => length_of_mem_blocks, flatten_blocks ⟨_, (length_pad M).trans (Nat.mul_comm ..)⟩⟩
  rw [length_blocks, length_pad, Nat.mul_div_cancel _ (by decide)]

/-- Settles O60: INIT forgets the bytes before it, each ABSORB takes its block in, and SQUEEZE emits the rate part, of
which the digest is the beginning. -/
theorem digestProtocolComputesTheDigest : Obligations.DigestProtocolComputesTheDigest := by
  intro M s hE
  obtain ⟨t, ht, hrun, hR, hlen⟩ := runEvents_digestProgram M hE rfl
  have hdigest : truncate (runOutput t) = digest M := by
    rw [hrun.runOutput_eq, truncate, List.take_take]
    rfl
  refine ⟨t, ht, hdigest, ?_, ?_, hrun.readBytes_eq, hR, hrun.ERR_eq, hrun.pending_eq⟩
  · rw [digest, truncate, List.length_take, hlen]
    rfl
  · rw [hrun.runOutput_eq, List.length_take, hlen]
    rfl
end

section
/-! PROOFS of family 60_exceptions.md, first the facts they share: the branches of the frame as branches of `exec`
(R222, R223, R226), what becomes of a transaction in each of them (R227), and what a step can do while a fault stands
and while none does (R224, R231). -/
namespace Sys2Proof

/-- A lane fails the check of R222 when one of its coordinates is above 4. -/
theorem LaneRef.wf_eq_false_iff (d : LaneRef) : d.wf = false ↔ 4 < d.x.toNat ∨ 4 < d.y.toNat := by
  simp only [LaneRef.wf, Bool.and_eq_false_iff, decide_eq_false_iff_not, Nat.not_le]

end Sys2Proof

namespace Sys2Proof.Machine

/-! ### The branches of a command (R222, R223, R226) -/

section
variable {i : Instr} {s : State}

theorem exec_refused (hE : s.ERR = true) : exec i s = .next (refuseCommand s) := by
  obtain ⟨f, hf⟩ := exec_eq_command i
  rw [hf, command_refused hE]

theorem exec_laneRange (hE : s.ERR = false) (hi : i.wf = false) : exec i s = .next (takeFault .laneRange s) := by
  obtain ⟨f, hf⟩ := exec_eq_command i
  rw [hf, command_laneRange hE hi]

theorem exec_length (hE : s.ERR = false) (hi : i.wf = true) (hp : s.payload.length ≠ payloadBytes i) :
    exec i s = .next (takeFault .length s) := by
  obtain ⟨f, hf⟩ := exec_eq_command i
  rw [hf, command_length hE hi hp]

end

/-! ### The branches of a transaction (R227) -/

section
variable {i : Instr} {s : State} {w : Word} {p : List Byte} {rest : List HostEvent}

/-- A word that decodes to a command is the command's word, so its transaction is the command, answered. -/
theorem step_of_decode_ok {t : State} (h : s.pending = .command w p :: rest) (hd : decode w = .ok i)
    (hx : exec i (present p { s with pending := rest }) = .next t) : step s = .next (answerOutput t) := by
  obtain rfl := decode_eq_ok_iff.1 hd
  exact step_of_exec h hx

/-- A transaction that is refused changes nothing and answers an empty output (R226). -/
theorem answerOutput_refuseCommand_present :
    answerOutput (refuseCommand (present p { s with pending := rest })) = afterAnswer s rest [] := rfl

/-- While a fault stands, a transaction is refused whether or not its word decodes. -/
theorem step_of_command_refused (hE : s.ERR = true) (h : s.pending = .command w p :: rest) :
    step s = .next (afterAnswer s rest []) := by
  rcases hd : decode w with e | i
  · have hreject : rejectWord (present p { s with pending := rest }) =
        refuseCommand (present p { s with pending := rest }) := if_pos hE
    rw [step_of_command h, transaction_of_decode_error hd, hreject, answerOutput_refuseCommand_present]
  · rw [step_of_decode_ok h hd (exec_refused hE), answerOutput_refuseCommand_present]

/-- A transaction whose command faults changes `ERR` and `CAUSE` only and answers an empty output (R224). -/
theorem step_of_exec_fault {c : Cause} (h : s.pending = .command w p :: rest) (hd : decode w = .ok i)
    (hx : exec i (present p { s with pending := rest }) = .next (takeFault c (present p { s with pending := rest }))) :
    step s = .next (afterAnswer { s with ERR := true, CAUSE := c } rest []) := by
  rw [step_of_decode_ok h hd hx, answerOutput_takeFault_present]

end

/-! ### A step while a fault stands and while none does (R224, R231) -/

section
variable {s : State}

theorem step_of_idle (h : s.pending = []) : step s = .next s := by
  rw [step, serve, h]

/-- While a fault stands, a step is a reset or keeps the fault, `S` and `R`. -/
theorem step_of_fault (hE : s.ERR = true) : (∃ rest, s.pending = .reset :: rest) ∨
    ∃ t, step s = .next t ∧ t.ERR = true ∧ t.CAUSE = s.CAUSE ∧ t.S = s.S ∧ t.R = s.R := by
  rcases hp : s.pending with _ | ⟨⟨w, p⟩ | _ | _, rest⟩
  · exact .inr ⟨s, step_of_idle hp, hE, rfl, rfl, rfl⟩
  · exact .inr ⟨_, step_of_command_refused hE hp, hE, rfl, rfl, rfl⟩
  · exact .inr ⟨_, step_of_readStatus hp, hE, rfl, rfl, rfl⟩
  · exact .inl ⟨rest, rfl⟩

/-- While no fault stands, a step leaves none or is a transaction that faults, with no effect but `ERR` and `CAUSE`. -/
theorem step_of_no_fault (hE : s.ERR = false) : ∃ t, step s = .next t ∧ (t.ERR = false ∨
    ∃ c rest, c ≠ .noFault ∧ t = afterAnswer { s with ERR := true, CAUSE := c } rest []) := by
  rcases step_cases s with ⟨-, he⟩ | ⟨rest, -, he⟩ | ⟨rest, -, he⟩ | ⟨w, p, rest, e, hp, hd, -⟩ |
    ⟨w, p, rest, i, hp, hd, -⟩
  · exact ⟨_, he, .inl hE⟩
  · exact ⟨_, he, .inl hE⟩
  · exact ⟨_, he, .inl (hostReset_ERR _)⟩
  · exact ⟨_, step_of_decode_error hE hp hd, .inr ⟨.illegalCommand, rest, by decide, rfl⟩⟩
  · rcases exec_cases i (present p { s with pending := rest }) with
      ⟨hE', -⟩ | ⟨-, c, hc, hx⟩ | ⟨-, m, r, o, hx, -⟩
    · exact absurd (hE.symm.trans hE') Bool.false_ne_true
    · exact ⟨_, step_of_exec_fault hp hd hx, .inr ⟨c, rest, hc, rfl⟩⟩
    · exact ⟨_, step_of_decode_ok hp hd hx, .inl hE⟩

end

end Sys2Proof.Machine

/-! ### The obligations -/

open Sys2Proof Sys2Proof.Machine

/-- Settles O9: each condition is a branch of the transaction, and an executed command changes `S`, `R` and the output
only. -/
theorem transactionsAreExaminedInOrder : Obligations.TransactionsAreExaminedInOrder := by
  intro s w p rest h
  refine ⟨fun hE => step_of_command_refused hE h, fun e hE hd => step_of_decode_error hE h hd,
    fun i hE hd hi => step_of_exec_fault h hd (exec_laneRange hE hi),
    fun i hE hd hi hp => step_of_exec_fault h hd (exec_length hE hi hp), fun i hE hd hi hp => ?_⟩
  have hready : Ready i (present p { s with pending := rest }) := ⟨hE, hi, hp⟩
  obtain ⟨m, r, o, hx, -, -, ho⟩ := exec_ready hready
  exact ⟨_, o, step_of_decode_ok h hd hx, ho, hE, rfl, rfl, rfl, rfl, rfl⟩

/-- Settles O10: the frame refuses before it looks at anything else, and of a step's events only a reset leaves the
fault. -/
theorem everyCommandIsRefusedWhileErr : Obligations.EveryCommandIsRefusedWhileErr := by
  refine ⟨fun s w p rest => step_of_command_refused, fun i s => exec_refused, fun s t hE ht ht' => ?_⟩
  rcases step_of_fault hE with hreset | ⟨u, hu, hE', -⟩
  · exact hreset
  · cases hu.symm.trans ht
    exact absurd (ht'.symm.trans hE') Bool.false_ne_true

/-- Settles O11: a coordinate above 4 makes the command ill-formed. -/
theorem coordinatesAboveFourFault : Obligations.CoordinatesAboveFourFault := by
  refine ⟨fun d t n s hE h => ?_, fun d s hE h => ?_⟩
  · have hwf : (d.wf && t.wf) = false := by
      rwa [Bool.and_eq_false_iff, LaneRef.wf_eq_false_iff, LaneRef.wf_eq_false_iff, or_assoc]
    exact ⟨exec_laneRange hE hwf, exec_laneRange hE hwf, exec_laneRange hE hwf⟩
  · have hwf : d.wf = false := d.wf_eq_false_iff.2 h
    exact ⟨exec_laneRange hE hwf, exec_laneRange hE hwf, exec_laneRange hE hwf⟩

/-- Settles O12: the lengths are those that R62 requires of the commands. -/
theorem wrongPayloadLengthsFault : Obligations.WrongPayloadLengthsFault := by
  intro i s hE hi hp
  refine exec_length hE hi fun hlen => hp (hlen.trans ?_)
  cases i <;> rfl

/-- Settles O13: only a transaction that faults sets `ERR`. -/
theorem faultsHaveNoOtherEffect : Obligations.FaultsHaveNoOtherEffect := by
  intro s t ht hE hE'
  obtain ⟨u, hu, hno | ⟨c, rest, hc, hfault⟩⟩ := step_of_no_fault hE
  · cases hu.symm.trans ht
    exact absurd (hno.symm.trans hE') Bool.false_ne_true
  · cases hu.symm.trans ht
    rw [hfault]
    exact ⟨rfl, rfl, hc, rfl⟩

/-- Settles O14: a step that is no reset keeps the fault that stands. -/
theorem onlyResetLeavesAFault : Obligations.OnlyResetLeavesAFault := by
  intro s t ht hE hreset
  rcases step_of_fault hE with ⟨rest, hp⟩ | ⟨u, hu, hkept⟩
  · exact absurd hp (hreset rest)
  · cases hu.symm.trans ht
    exact hkept

/-- Settles O19: an idle step answers the state it finds. -/
theorem idleStepKeepsAllState : Obligations.IdleStepKeepsAllState := fun _ => step_of_idle
end

section
/-! PROOFS of family 70_reset_and_hazards.md: a reset event brings back the state of R34, up to the host's own lists
(R250). -/
namespace Sys2Proof.Machine

theorem step_of_reset {s : State} {rest : List HostEvent} (h : s.pending = .reset :: rest) :
    step s = .next (hostReset { s with pending := rest }) := by
  rw [step, serve, h]

/-- `STATUS` is a view of `ERR`, `CAUSE` and `R` (R29), and a reset leaves all three as in the state after reset. -/
theorem statusWord_hostReset (s : State) : statusWord (hostReset s) = statusWord State.reset := rfl

end Sys2Proof.Machine

/-! ### The obligations -/

open Sys2Proof Sys2Proof.Machine

/-- Settles O17: what a reset leaves of the engine is the state after reset, whose values are those of R34. -/
theorem hostResetRestoresTheResetState : Obligations.HostResetRestoresTheResetState := by
  intro s rest h
  obtain ⟨-, hR, -, -, hstatus⟩ := resetValues
  exact ⟨_, step_of_reset h, Memory.read_nil, (hostReset_R _).trans hR, hostReset_ERR _, hostReset_CAUSE _,
    (statusWord_hostReset _).trans hstatus⟩
end

section
/-! PROOFS of family other: the two ways in which the decoder rejects a word, each by its reason (R74, R75), and the
sample words of 95_test_vectors.md section 6. -/
namespace Sys2Proof

theorem opcode_withFields (w : Word) (i : Instr) : opcode (withFields w i) = opcode i := by cases i <;> rfl

/-- R74, for a check on the eighteen commands: a word with the opcode of none of them has an unassigned one. -/
theorem decode_unassignedOpcode {w : Word} (h : ∀ i ∈ commands, opField w ≠ opcode i) :
    decode w = .error .unassignedOpcode := by
  refine (exists_opcode_or_decode_unassigned w).resolve_left ?_
  rintro ⟨i, hop⟩
  exact h _ (withFields_zero_mem_commands i) (hop.trans (opcode_withFields 0#32 i).symm)

/-- R75: a word with a command's opcode and a 1 among the bits that its format wants zero is rejected for that bit. -/
theorem decode_mustBeZeroBit {w : Word} {i : Instr} (hop : opField w = opcode i)
    (hbit : w.toNat % 2 ^ zeroBits i ≠ 0) : decode w = .error .mustBeZeroBit := by
  rw [decode_of_opField hop, zeroBelow, if_neg hbit]

end Sys2Proof

/-! ### The obligations -/

open Sys2Proof

/-- Settles O6: six words are the words of their commands, `0x27` is no command's opcode, and the last word is that of
THETA with bit 0 set. -/
theorem sampleWordsDecode : Obligations.SampleWordsDecode := by
  refine ⟨?lxor, ?lrol, ?ldl, ?iota, ?permute, ?absorb, ?unassigned, ?nonzeroBit⟩
  case unassigned => exact decode_unassignedOpcode (by decide)
  case nonzeroBit => exact decode_mustBeZeroBit (i := .theta) (by decide) (by decide)
  all_goals exact decode_eq_ok_iff.2 (by decide)
end
